-- ==== Sys2Proof/Word.lean ====
section
/-! DEFINITION. The widths of the machine's values (00_scope.md R6, R9). -/

namespace Sys2Proof

/-- A `u8`: a general register, a timer, a byte of memory (R9). -/
abbrev Byte := BitVec 8

/-- A `u16`: the instruction word, `pc`, `I`, a stack slot (R9). -/
abbrev Word := BitVec 16

/-- A `u12`: the `nnn` field (R9, R71). -/
abbrev Addr12 := BitVec 12

/-- The index of a general register, 0..15 (R21, R23). -/
abbrev RegIdx := Fin 16

/-- The index of a key, 0..15 (R30). -/
abbrev KeyIdx := Fin 16

/-- The flag register VF is register 15 (R22). -/
def VF : RegIdx := 15

end Sys2Proof
end

