-- ==== Sys2Proof/Syntax.lean ====
section
/-! DEFINITION. The instructions: one constructor for each row of spec/opcode_table.json, in the table's order. -/

namespace Sys2Proof

/-- An instruction with its operands (30_encoding.md R71, R73). `x` and `y` are register indexes, `kk` the
immediate byte, `nnn` the address, `n` the sprite height.

The four no-op rows carry the twelve bits below the category of the word that no entry of the category's table
maps, so that the word of a no-op can be written out again: the handler itself reads none of them (R79). DESIGN CHOICE: log 12. -/
inductive Instr where
  /-- CLS (R170). -/
  | cls
  /-- RET (R100). -/
  | ret
  /-- JP nnn (R101). -/
  | jp (nnn : Addr12)
  /-- CALL nnn (R102). -/
  | call (nnn : Addr12)
  /-- SE Vx, kk (R103). -/
  | seImm (x : RegIdx) (kk : Byte)
  /-- SNE Vx, kk (R104). -/
  | sneImm (x : RegIdx) (kk : Byte)
  /-- SE Vx, Vy (R105). -/
  | seReg (x y : RegIdx)
  /-- LD Vx, kk (R120). -/
  | ldImm (x : RegIdx) (kk : Byte)
  /-- ADD Vx, kk (R121). -/
  | addImm (x : RegIdx) (kk : Byte)
  /-- LD Vx, Vy (R122). -/
  | ldReg (x y : RegIdx)
  /-- OR Vx, Vy (R123). -/
  | orReg (x y : RegIdx)
  /-- AND Vx, Vy (R124). -/
  | andReg (x y : RegIdx)
  /-- XOR Vx, Vy (R125). -/
  | xorReg (x y : RegIdx)
  /-- ADD Vx, Vy (R126). -/
  | addReg (x y : RegIdx)
  /-- SUB Vx, Vy (R127). -/
  | sub (x y : RegIdx)
  /-- SHR Vx (R128). -/
  | shr (x : RegIdx)
  /-- SUBN Vx, Vy (R129). -/
  | subn (x y : RegIdx)
  /-- SHL Vx (R130). -/
  | shl (x : RegIdx)
  /-- SNE Vx, Vy (R106). -/
  | sneReg (x y : RegIdx)
  /-- LD I, nnn (R150). -/
  | ldI (nnn : Addr12)
  /-- JP V0, nnn (R107). -/
  | jpV0 (nnn : Addr12)
  /-- RND Vx, kk (R131). -/
  | rnd (x : RegIdx) (kk : Byte)
  /-- DRW Vx, Vy, n (R171). -/
  | drw (x y : RegIdx) (n : Fin 16)
  /-- SKP Vx (R180). -/
  | skp (x : RegIdx)
  /-- SKNP Vx (R181). -/
  | sknp (x : RegIdx)
  /-- LD Vx, DT (R182). -/
  | ldVxDt (x : RegIdx)
  /-- LD Vx, K (R185). -/
  | ldVxK (x : RegIdx)
  /-- LD DT, Vx (R183). -/
  | ldDtVx (x : RegIdx)
  /-- LD ST, Vx (R184). -/
  | ldStVx (x : RegIdx)
  /-- ADD I, Vx (R151). -/
  | addI (x : RegIdx)
  /-- LD F, Vx (R152). -/
  | ldF (x : RegIdx)
  /-- LD B, Vx (R153). -/
  | ldB (x : RegIdx)
  /-- LD [I], Vx (R154). -/
  | stRegs (x : RegIdx)
  /-- LD Vx, [I] (R155). -/
  | ldRegs (x : RegIdx)
  /-- The no-op handler, reached through table 0 (R75, R79). -/
  | nop0 (rest : Addr12)
  /-- The no-op handler, reached through table 8 (R76, R79). -/
  | nop8 (rest : Addr12)
  /-- The no-op handler, reached through table E (R77, R79). -/
  | nopE (rest : Addr12)
  /-- The no-op handler, reached through table F (R78, R79). -/
  | nopF (rest : Addr12)
deriving DecidableEq, Repr

end Sys2Proof
end

