-- ==== Sys2Proof/WellFormed.lean ====
section
/-! DEFINITION. Which terms of `Instr` are instructions. Register indexes, immediates and the sprite height are
bounded by their types; what is left to check is that a no-op's word is one its table does not map (R79). -/

namespace Sys2Proof

/-- The keys of table 0 that name an instruction (30_encoding.md R75). -/
def mapped0 (key : BitVec 4) : Bool := [0x0#4, 0xE#4].contains key

/-- The keys of table 8 that name an instruction (R76). -/
def mapped8 (key : BitVec 4) : Bool :=
  [0x0#4, 0x1#4, 0x2#4, 0x3#4, 0x4#4, 0x5#4, 0x6#4, 0x7#4, 0xE#4].contains key

/-- The keys of table E that name an instruction (R77). -/
def mappedE (key : BitVec 4) : Bool := [0xE#4, 0x1#4].contains key

/-- The keys of table F that name an instruction (R78). -/
def mappedF (key : BitVec 8) : Bool :=
  [0x07#8, 0x0A#8, 0x15#8, 0x18#8, 0x1E#8, 0x29#8, 0x33#8, 0x55#8, 0x65#8].contains key

/-- The key of tables 0, 8 and E: the low four bits (R74). -/
def lowNibble (rest : Addr12) : BitVec 4 := rest.extractLsb' 0 4

/-- The key of table F: the low eight bits (R74). -/
def lowByte (rest : Addr12) : BitVec 8 := rest.extractLsb' 0 8

/-- Well-formed: a no-op is "every word not selected by rules R74 to R78" (R79). -/
def Instr.wf : Instr → Bool
  | .nop0 rest => !mapped0 (lowNibble rest)
  | .nop8 rest => !mapped8 (lowNibble rest)
  | .nopE rest => !mappedE (lowNibble rest)
  | .nopF rest => !mappedF (lowByte rest)
  | .cls | .ret | .jp _ | .call _ | .seImm _ _ | .sneImm _ _ | .seReg _ _ | .ldImm _ _ | .addImm _ _
  | .ldReg _ _ | .orReg _ _ | .andReg _ _ | .xorReg _ _ | .addReg _ _ | .sub _ _ | .shr _ | .subn _ _
  | .shl _ | .sneReg _ _ | .ldI _ | .jpV0 _ | .rnd _ _ | .drw _ _ _ | .skp _ | .sknp _ | .ldVxDt _
  | .ldVxK _ | .ldDtVx _ | .ldStVx _ | .addI _ | .ldF _ | .ldB _ | .stRegs _ | .ldRegs _ => true

end Sys2Proof
end

