-- ==== Sys2Proof/Decode.lean ====
section
/-! DEFINITION. The decoder (30_encoding.md R70 to R81), total on bytes, then the encoder, written from the
opcode map of 30_encoding.md section 6. The opcode values and the place of `n` are PRESUMED by the spec itself
(D1, D2): log 13. -/

namespace Sys2Proof

/-! ### The fields of the instruction word (R71, R72) -/

/-- `cat = w[15:12]`. -/
def cat (w : Word) : BitVec 4 := w.extractLsb' 12 4

/-- A four-bit field as the index it stands for (R73: unsigned, not scaled). -/
def fieldIdx (b : BitVec 4) : Fin 16 := ⟨b.toNat, b.isLt⟩

/-- `x = w[11:8]`. -/
def xField (w : Word) : RegIdx := fieldIdx (w.extractLsb' 8 4)

/-- `y = w[7:4]`. -/
def yField (w : Word) : RegIdx := fieldIdx (w.extractLsb' 4 4)

/-- `kk = w[7:0]`. -/
def kkField (w : Word) : Byte := w.extractLsb' 0 8

/-- `nnn = w[11:0]`. -/
def nnnField (w : Word) : Addr12 := w.extractLsb' 0 12

/-- `n = w[3:0]` (D2). -/
def nField (w : Word) : Fin 16 := fieldIdx (w.extractLsb' 0 4)

/-- `sub4 = w[3:0]`, the key of tables 0, 8 and E. -/
def sub4 (w : Word) : BitVec 4 := w.extractLsb' 0 4

/-- `sub8 = w[7:0]`, the key of table F. -/
def sub8 (w : Word) : BitVec 8 := w.extractLsb' 0 8

/-! ### The two-level dispatch (R74) -/

/-- Table 0 (R75): bits 11:4 are not examined. -/
def table0 (w : Word) : Instr :=
  match sub4 w with
  | 0x0#4 => .cls
  | 0xE#4 => .ret
  | _ => .nop0 (nnnField w)

/-- Table 8 (R76). -/
def table8 (w : Word) : Instr :=
  match sub4 w with
  | 0x0#4 => .ldReg (xField w) (yField w)
  | 0x1#4 => .orReg (xField w) (yField w)
  | 0x2#4 => .andReg (xField w) (yField w)
  | 0x3#4 => .xorReg (xField w) (yField w)
  | 0x4#4 => .addReg (xField w) (yField w)
  | 0x5#4 => .sub (xField w) (yField w)
  | 0x6#4 => .shr (xField w)
  | 0x7#4 => .subn (xField w) (yField w)
  | 0xE#4 => .shl (xField w)
  | _ => .nop8 (nnnField w)

/-- Table E (R77): bits 7:4 are not examined. -/
def tableE (w : Word) : Instr :=
  match sub4 w with
  | 0xE#4 => .skp (xField w)
  | 0x1#4 => .sknp (xField w)
  | _ => .nopE (nnnField w)

/-- Table F (R78): a key the table does not list, those above 0x65 among them (D27), is a no-op. -/
def tableF (w : Word) : Instr :=
  match sub8 w with
  | 0x07#8 => .ldVxDt (xField w)
  | 0x0A#8 => .ldVxK (xField w)
  | 0x15#8 => .ldDtVx (xField w)
  | 0x18#8 => .ldStVx (xField w)
  | 0x1E#8 => .addI (xField w)
  | 0x29#8 => .ldF (xField w)
  | 0x33#8 => .ldB (xField w)
  | 0x55#8 => .stRegs (xField w)
  | 0x65#8 => .ldRegs (xField w)
  | _ => .nopF (nnnField w)

/-- `Dispatch(w)` with `Decode(w)` (R72, R74): every one of the 65536 words is an instruction (R81). -/
def decode (w : Word) : Instr :=
  match cat w with
  | 0x0#4 => table0 w
  | 0x1#4 => .jp (nnnField w)
  | 0x2#4 => .call (nnnField w)
  | 0x3#4 => .seImm (xField w) (kkField w)
  | 0x4#4 => .sneImm (xField w) (kkField w)
  | 0x5#4 => .seReg (xField w) (yField w)
  | 0x6#4 => .ldImm (xField w) (kkField w)
  | 0x7#4 => .addImm (xField w) (kkField w)
  | 0x8#4 => table8 w
  | 0x9#4 => .sneReg (xField w) (yField w)
  | 0xA#4 => .ldI (nnnField w)
  | 0xB#4 => .jpV0 (nnnField w)
  | 0xC#4 => .rnd (xField w) (kkField w)
  | 0xD#4 => .drw (xField w) (yField w) (nField w)
  | 0xE#4 => tableE w
  | _ => tableF w

/-! ### Bytes and words (R52: high byte first) -/

/-- The word of two consecutive bytes, the first of them the high one. -/
def wordOfBytes (hi lo : Byte) : Word := hi ++ lo

/-- The byte of a word that lies at the lower address. -/
def hiByte (w : Word) : Byte := w.extractLsb' 8 8

/-- The byte of a word that lies at the higher address. -/
def loByte (w : Word) : Byte := w.extractLsb' 0 8

/-- Why a sequence of bytes holds no instruction. No word is refused (R81), so the only reason is that two bytes
are not there. -/
inductive DecodeError where
  | truncated
deriving DecidableEq, Repr

/-- The instruction at the head of a sequence of bytes, with the bytes after it. -/
def decodeBytes : List Byte → Except DecodeError (Instr × List Byte)
  | hi :: lo :: rest => .ok (decode (wordOfBytes hi lo), rest)
  | [_] => .error .truncated
  | [] => .error .truncated

/-! ### The encoder (opcode map, 30_encoding.md section 6) -/

/-- An index as the four bits of its field. -/
def idxField (k : Fin 16) : BitVec 4 := BitVec.ofNat 4 k.val

/-- `cat`, then the twelve bits below it. -/
def wordNnn (c : BitVec 4) (nnn : Addr12) : Word := c ++ nnn

/-- `cat`, `x`, then the eight bits below. -/
def wordXkk (c : BitVec 4) (x : RegIdx) (kk : Byte) : Word := c ++ (idxField x ++ kk : BitVec 12)

/-- `cat`, `x`, `y`, then the four bits below. -/
def wordXyn (c : BitVec 4) (x y : RegIdx) (low : BitVec 4) : Word :=
  c ++ (idxField x ++ (idxField y ++ low : BitVec 8) : BitVec 12)

/-- `cat`, `x`, four bits that the row ignores, then the four bits below. -/
def wordXin (c : BitVec 4) (x : RegIdx) (ignored low : BitVec 4) : Word :=
  c ++ (idxField x ++ (ignored ++ low : BitVec 8) : BitVec 12)

/-- The word of an instruction: its canonical word (R84), whose ignored bits hold their classic values; a
no-op's word is the one it carries. DESIGN CHOICE: 0 in the y nibble of SHR and SHL, log 11. -/
def encode : Instr → Word
  | .cls => 0x00E0#16
  | .ret => 0x00EE#16
  | .jp nnn => wordNnn 0x1#4 nnn
  | .call nnn => wordNnn 0x2#4 nnn
  | .seImm x kk => wordXkk 0x3#4 x kk
  | .sneImm x kk => wordXkk 0x4#4 x kk
  | .seReg x y => wordXyn 0x5#4 x y 0x0#4
  | .ldImm x kk => wordXkk 0x6#4 x kk
  | .addImm x kk => wordXkk 0x7#4 x kk
  | .ldReg x y => wordXyn 0x8#4 x y 0x0#4
  | .orReg x y => wordXyn 0x8#4 x y 0x1#4
  | .andReg x y => wordXyn 0x8#4 x y 0x2#4
  | .xorReg x y => wordXyn 0x8#4 x y 0x3#4
  | .addReg x y => wordXyn 0x8#4 x y 0x4#4
  | .sub x y => wordXyn 0x8#4 x y 0x5#4
  | .shr x => wordXin 0x8#4 x 0x0#4 0x6#4
  | .subn x y => wordXyn 0x8#4 x y 0x7#4
  | .shl x => wordXin 0x8#4 x 0x0#4 0xE#4
  | .sneReg x y => wordXyn 0x9#4 x y 0x0#4
  | .ldI nnn => wordNnn 0xA#4 nnn
  | .jpV0 nnn => wordNnn 0xB#4 nnn
  | .rnd x kk => wordXkk 0xC#4 x kk
  | .drw x y n => wordXyn 0xD#4 x y (idxField n)
  | .skp x => wordXin 0xE#4 x 0x9#4 0xE#4
  | .sknp x => wordXin 0xE#4 x 0xA#4 0x1#4
  | .ldVxDt x => wordXkk 0xF#4 x 0x07#8
  | .ldVxK x => wordXkk 0xF#4 x 0x0A#8
  | .ldDtVx x => wordXkk 0xF#4 x 0x15#8
  | .ldStVx x => wordXkk 0xF#4 x 0x18#8
  | .addI x => wordXkk 0xF#4 x 0x1E#8
  | .ldF x => wordXkk 0xF#4 x 0x29#8
  | .ldB x => wordXkk 0xF#4 x 0x33#8
  | .stRegs x => wordXkk 0xF#4 x 0x55#8
  | .ldRegs x => wordXkk 0xF#4 x 0x65#8
  | .nop0 rest => wordNnn 0x0#4 rest
  | .nop8 rest => wordNnn 0x8#4 rest
  | .nopE rest => wordNnn 0xE#4 rest
  | .nopF rest => wordNnn 0xF#4 rest

/-- The two bytes of an instruction as memory holds them (R52). -/
def encodeBytes (i : Instr) : List Byte := [hiByte (encode i), loByte (encode i)]

/-! ### The columns of the opcode table (30_encoding.md section 6) -/

/-- `match`: the value of the fixed bits of an instruction's row. -/
def Instr.opMatch : Instr → Word
  | .cls => 0x0000#16
  | .ret => 0x000E#16
  | .jp _ => 0x1000#16
  | .call _ => 0x2000#16
  | .seImm _ _ => 0x3000#16
  | .sneImm _ _ => 0x4000#16
  | .seReg _ _ => 0x5000#16
  | .ldImm _ _ => 0x6000#16
  | .addImm _ _ => 0x7000#16
  | .ldReg _ _ => 0x8000#16
  | .orReg _ _ => 0x8001#16
  | .andReg _ _ => 0x8002#16
  | .xorReg _ _ => 0x8003#16
  | .addReg _ _ => 0x8004#16
  | .sub _ _ => 0x8005#16
  | .shr _ => 0x8006#16
  | .subn _ _ => 0x8007#16
  | .shl _ => 0x800E#16
  | .sneReg _ _ => 0x9000#16
  | .ldI _ => 0xA000#16
  | .jpV0 _ => 0xB000#16
  | .rnd _ _ => 0xC000#16
  | .drw _ _ _ => 0xD000#16
  | .skp _ => 0xE00E#16
  | .sknp _ => 0xE001#16
  | .ldVxDt _ => 0xF007#16
  | .ldVxK _ => 0xF00A#16
  | .ldDtVx _ => 0xF015#16
  | .ldStVx _ => 0xF018#16
  | .addI _ => 0xF01E#16
  | .ldF _ => 0xF029#16
  | .ldB _ => 0xF033#16
  | .stRegs _ => 0xF055#16
  | .ldRegs _ => 0xF065#16
  | .nop0 _ => 0x0000#16
  | .nop8 _ => 0x8000#16
  | .nopE _ => 0xE000#16
  | .nopF _ => 0xF000#16

/-- `mask`: which bits of an instruction's row are fixed. -/
def Instr.opMask : Instr → Word
  | .cls | .ret | .ldReg _ _ | .orReg _ _ | .andReg _ _ | .xorReg _ _ | .addReg _ _ | .sub _ _ | .shr _
  | .subn _ _ | .shl _ | .skp _ | .sknp _ => 0xF00F#16
  | .jp _ | .call _ | .seImm _ _ | .sneImm _ _ | .seReg _ _ | .ldImm _ _ | .addImm _ _ | .sneReg _ _
  | .ldI _ | .jpV0 _ | .rnd _ _ | .drw _ _ _ | .nop0 _ | .nop8 _ | .nopE _ | .nopF _ => 0xF000#16
  | .ldVxDt _ | .ldVxK _ | .ldDtVx _ | .ldStVx _ | .addI _ | .ldF _ | .ldB _ | .stRegs _
  | .ldRegs _ => 0xF0FF#16

/-- The bits of the word that the dispatch or the handler names. The others are ignored (R80): bits 11:4 of table-0
words, bits 7:4 of table-E words, the low nibble of 5xyN and 9xyN, `y` of SHR and SHL, and everything but the category
and the table's key of a no-op, whose handler has no operands (R79). -/
def Instr.named : Instr → Word
  | .cls | .ret | .nop0 _ | .nop8 _ | .nopE _ => 0xF00F#16
  | .nopF _ => 0xF0FF#16
  | .shr _ | .shl _ | .skp _ | .sknp _ => 0xFF0F#16
  | .seReg _ _ | .sneReg _ _ => 0xFFF0#16
  | .jp _ | .call _ | .seImm _ _ | .sneImm _ _ | .ldImm _ _ | .addImm _ _ | .ldReg _ _ | .orReg _ _
  | .andReg _ _ | .xorReg _ _ | .addReg _ _ | .sub _ _ | .subn _ _ | .ldI _ | .jpV0 _ | .rnd _ _
  | .drw _ _ _ | .ldVxDt _ | .ldVxK _ | .ldDtVx _ | .ldStVx _ | .addI _ | .ldF _ | .ldB _ | .stRegs _
  | .ldRegs _ => 0xFFFF#16

/-! ### Words as spec/opcode_table.json numbers them -/

/-- The instruction word whose low `nbits` bits are those of `w`, every bit above them 0. -/
def tableWord (nbits w : Nat) : Word := BitVec.ofNat 16 (w % 2 ^ nbits)

/-- The bytes of that word as the hardware stores them. -/
def tableBytes (nbits w : Nat) : List Byte :=
  [hiByte (tableWord nbits w), loByte (tableWord nbits w)]

/-- What the decoder reads from those bytes. -/
def decodeTableWord (nbits w : Nat) : Option Instr :=
  match decodeBytes (tableBytes nbits w) with
  | .ok (i, _) => some i
  | .error _ => none

end Sys2Proof
end

