-- ==== Sys2Proof/Config.lean ====
section
/-! DEFINITION. What is fixed for this machine (00_scope.md R6), the parameters the source leaves open at the
spec's values (R7), and the one free value, the random byte (R13). -/

namespace Sys2Proof.Config

/-- MEM_SIZE: addresses 0x000..0xFFF (R6). -/
def memSize : Nat := 4096

/-- FONT_BASE: the first byte of the glyph of digit 0 (R6, R36). -/
def fontBase : Nat := 0x50

/-- 16 glyphs of 5 bytes each (R6, R36). -/
def fontSize : Nat := 80

/-- PROGRAM_BASE: where the image is loaded and execution starts (R6). -/
def programBase : Nat := 0x200

/-- MAX_IMAGE: 4096 - 512 bytes (R6, R231). -/
def maxImage : Nat := 3584

/-- FONT at its default, the classic 80 bytes of 10_state.md R36, one line a digit (parameter, D3).
PRESUMED by the spec itself ("from general knowledge, not in source"): log 3. -/
def font : List Byte :=
  [0xF0, 0x90, 0x90, 0x90, 0xF0] ++
  [0x20, 0x60, 0x20, 0x20, 0x70] ++
  [0xF0, 0x10, 0xF0, 0x80, 0xF0] ++
  [0xF0, 0x10, 0xF0, 0x10, 0xF0] ++
  [0x90, 0x90, 0xF0, 0x10, 0x10] ++
  [0xF0, 0x80, 0xF0, 0x10, 0xF0] ++
  [0xF0, 0x80, 0xF0, 0x90, 0xF0] ++
  [0xF0, 0x10, 0x20, 0x40, 0x40] ++
  [0xF0, 0x90, 0xF0, 0x90, 0xF0] ++
  [0xF0, 0x90, 0xF0, 0x10, 0xF0] ++
  [0xF0, 0x90, 0xF0, 0x90, 0x90] ++
  [0xE0, 0x90, 0xE0, 0x90, 0xE0] ++
  [0xF0, 0x80, 0x80, 0x80, 0xF0] ++
  [0xE0, 0x90, 0x90, 0x90, 0xE0] ++
  [0xF0, 0x80, 0xF0, 0x80, 0xF0] ++
  [0xF0, 0x80, 0xF0, 0x80, 0x80]

/-- What becomes of a sprite pixel past the right or bottom edge (43_display.md R172). -/
inductive SpriteEdge where
  | clip
  | wrap
deriving DecidableEq, Repr

/-- SPRITE_EDGE at the spec's value (R172, D9): log 5. -/
def spriteEdge : SpriteEdge := .clip

/-- The random byte source: the value of the draw number `k` (R13, R33, D18). A FREE VALUE: the constant has
no body, so nothing is known of any draw, and no law relates two of them. Log 1. -/
opaque drawByte : Nat → Byte

end Sys2Proof.Config
end

