-- ==== Sys2Proof/Machine/State.lean ====
section
/-! DEFINITION. The machine's state (10_state.md R20), the reasons a cycle can stop, and the state after reset. -/

namespace Sys2Proof.Machine

/-! ### Faults -/

/-- The causes of 60_exceptions.md R201. Each is a stop the spec itself decides (D4, D7, D8, D10, D14), so
stopping there is what the spec says of the machine; beside a machine that goes on it is SAFE. -/
inductive Cause where
  /-- Code 1. Raised by the fetch of any cycle with pc > 0xFFE (R52). -/
  | memRangeFetch
  /-- Code 2. Raised by DRW and LD Vx, [I] when a byte to read lies above 0xFFF (R171, R155). -/
  | memRangeRead
  /-- Code 3. Raised by LD B, Vx and LD [I], Vx when a byte to write lies above 0xFFF (R153, R154). -/
  | memRangeWrite
  /-- Code 4. Raised by CALL with SP = 16 (R102). -/
  | stackOverflow
  /-- Code 5. Raised by RET with SP = 0 (R100). -/
  | stackUnderflow
  /-- Code 6. Raised by SKP and SKNP with V[x] > 15 (R180, R181). -/
  | keyRange
  /-- Code 16. Raised by the program loader, before the first cycle, never by a cycle (R231). -/
  | imageTooLarge
deriving DecidableEq, Repr

/-- The fault record `{cause, pc, word, info}` (10_state.md R32, 60_exceptions.md R203). -/
structure FaultRecord where
  cause : Cause
  /-- The address the cycle fetched from. -/
  pc : Word
  /-- The fetched word; `none` for a fetch fault. -/
  word : Option Word
  /-- The info column of R201. -/
  info : Option Nat
deriving DecidableEq, Repr

/-- How a step stops with a fault. Both forms are stops the spec decides: SAFE. -/
inductive Fault where
  /-- `raise E(info)` (00_scope.md R12): what the fetch or an instruction's meaning answers, before the cycle
  driver writes the record. Raised by the fetch check and by CALL, RET, SKP, SKNP, DRW, LD B, LD [I], LD Vx, [I]. -/
  | raised (cause : Cause) (info : Option Nat)
  /-- The record of the faulted cycle (R203). Answered by `step`: for the cycle that faults, and again for
  every step from a state whose record is set, since that state has no cycle. -/
  | recorded (r : FaultRecord)
deriving DecidableEq, Repr

/-- How the machine refuses. -/
inductive Refusal where
  /-- An instruction without a meaning yet, refused by name by the dispatcher: SAFE. No arm does. -/
  | notModelled (mnemonic : String)
  /-- IMAGE_TOO_LARGE (R201 code 16, R231), with the image's length. Answered by the loader only, never by a
  cycle: "the image is refused, nothing is loaded and no cycle may run": SAFE. -/
  | imageTooLarge (length : Nat)
deriving DecidableEq, Repr

/-! ### Memory and display -/

/-- The 4096-byte memory (R31): the addresses whose byte differs from the contents after initialization, rising,
each with its byte. What an unlisted address reads as is `blank` in Machine/Ops.lean. -/
abbrev Memory := List Host.Cell

/-- The display buffer `D[row][col]`: 32 rows from the top, 64 columns from the left, true = on (R29, D17). -/
abbrev Display := Vector (Vector Bool 64) 32

/-- The key state: `key[k]` is true while key `k` is pressed (R30). -/
abbrev Keys := Vector Bool 16

/-! ### The state -/

/-- The components of R20, each under the spec's name (R10), and `drawIndex`, the model's own. -/
structure State where
  /-- Memory (R31). -/
  M : Memory
  /-- The general registers V0..VF (R21). -/
  V : Vector Byte 16
  /-- The index register (R24). -/
  I : Word
  /-- The program counter (R25). -/
  pc : Word
  /-- The stack pointer, 0..16: the next free slot (R26). -/
  SP : Fin 17
  /-- The call stack (R27). -/
  stack : Vector Word 16
  /-- The delay timer (R28). -/
  DT : Byte
  /-- The sound timer (R28). -/
  ST : Byte
  /-- The display buffer (R29). -/
  D : Display
  /-- The key state (R30). -/
  key : Keys
  /-- The fault record, `none` while the machine runs (R32). -/
  fault : Option FaultRecord
  /-- The model's own: how many random bytes have been drawn (R13, R33; log 1). -/
  drawIndex : Nat
deriving DecidableEq, Repr

/-- What a meaning, and a step, answers. -/
abbrev Result := Host.Outcome State Fault Refusal

/-- The state after initialization with no image loaded (70_reset_and_hazards.md R230). `drawIndex` is the
model's: DESIGN CHOICE, log 1. The zeros are the spec's decision D13: log 6. -/
def State.reset : State where
  M := []
  V := Vector.replicate 16 0
  I := 0
  pc := 0x200
  SP := 0
  stack := Vector.replicate 16 0
  DT := 0
  ST := 0
  D := Vector.replicate 32 (Vector.replicate 64 false)
  key := Vector.replicate 16 false
  fault := none
  drawIndex := 0

end Sys2Proof.Machine
end

