-- ==== Sys2Proof/Machine/Ops.lean ====
section
/-! DEFINITION. The named operations over memory, registers, stack, timers and the random source; the fetch, the
tick and the fault entry that the cycle driver is made of. -/

namespace Sys2Proof.Machine

/-! ### Memory (20_memory.md) -/

/-- Byte `k` of the font region (R36, parameter FONT). -/
def fontByte (k : Nat) : Byte := Config.font.getD k 0

/-- What an address reads as until it is written: its contents after initialization, the font at 0x50..0x9F and 0
everywhere else (R31, R230). DESIGN CHOICE: log 2. -/
def blank (a : Nat) : Byte :=
  if Config.fontBase ≤ a ∧ a < Config.fontBase + Config.fontSize then fontByte (a - Config.fontBase) else 0

/-- `M[a]`, for the addresses of R50; the range check of R59 stands in the fetch and in `badAddr`. -/
def Memory.read : Memory → Nat → Byte
  | [], a => blank a
  | (k, c) :: rest, a => if k = a then c else Memory.read rest a

/-- A byte listed at `a` before `rest`, unless it is what `a` reads as unlisted. -/
def Memory.cons (a : Nat) (b : Byte) (rest : Memory) : Memory := if b = blank a then rest else (a, b) :: rest

/-- `M[a] <- b` in the canonical form. -/
def Memory.write : Memory → Nat → Byte → Memory
  | [], a, b => Memory.cons a b []
  | (k, c) :: rest, a, b =>
    if a < k then Memory.cons a b ((k, c) :: rest)
    else if a = k then Memory.cons a b rest
    else (k, c) :: Memory.write rest a b

/-- Consecutive bytes at ascending addresses from `a` (R53). -/
def Memory.writeBytes (m : Memory) (a : Nat) : List Byte → Memory
  | [] => m
  | b :: bs => Memory.writeBytes (m.write a b) (a + 1) bs

/-- No address of the list is `lo` or above the space, none repeats, they rise, and no byte is listed that the
address would read as unlisted. -/
def Memory.wfFrom (lo : Nat) : Memory → Bool
  | [] => true
  | (k, c) :: rest => decide (lo ≤ k) && decide (k < Config.memSize) && decide (c ≠ blank k) && Memory.wfFrom (k + 1) rest

/-- The canonical form: equal memories are equal lists. -/
def Memory.wf (m : Memory) : Bool := Memory.wfFrom 0 m

/-! ### Registers (R21 to R25) -/

/-- `V[x]`. -/
def State.reg (s : State) (x : RegIdx) : Byte := s.V[x]

/-- `V[x] <- b`: no register is hardwired (R21). -/
def State.setReg (s : State) (x : RegIdx) (b : Byte) : State := { s with V := s.V.set x b }

/-- `VF <- b`, an instruction's write of the flag (R22). -/
def State.setFlag (s : State) (b : Byte) : State := s.setReg VF b

/-- `I <- a`. -/
def State.setI (s : State) (a : Word) : State := { s with I := a }

/-- `pc <- a`. -/
def State.setPc (s : State) (a : Word) : State := { s with pc := a }

/-- `pc <- (pc + 2) mod 2^16`: the advance of a fetch (R83), and of a skip (R109). -/
def State.advancePc (s : State) : State := s.setPc (s.pc + 2)

/-- `pc <- (pc - 2) mod 2^16`: wait-for-key steps back to its own address (R185). -/
def State.rewindPc (s : State) : State := s.setPc (s.pc - 2)

/-- `DT <- b`. -/
def State.setDT (s : State) (b : Byte) : State := { s with DT := b }

/-- `ST <- b`. -/
def State.setST (s : State) (b : Byte) : State := { s with ST := b }

/-- The display buffer's new contents. -/
def State.setD (s : State) (d : Display) : State := { s with D := d }

/-- The memory's new contents. -/
def State.setM (s : State) (m : Memory) : State := { s with M := m }

/-! ### The call stack (R26, R27) -/

/-- `stack[SP] <- a; SP <- SP + 1`; `none` with SP = 16 (R102). -/
def State.push (s : State) (a : Word) : Option State :=
  if h : s.SP.val < 16 then
    some { s with stack := s.stack.set s.SP.val a h, SP := ⟨s.SP.val + 1, by omega⟩ }
  else none

/-- `SP <- SP - 1`, then the value of `stack[SP]`, which the slot keeps (R27, D26); `none` with SP = 0 (R100). -/
def State.pop (s : State) : Option (Word × State) :=
  if h : 0 < s.SP.val then
    some (s.stack[s.SP.val - 1]'(by have := s.SP.isLt; omega),
      { s with SP := ⟨s.SP.val - 1, by have := s.SP.isLt; omega⟩ })
  else none

/-! ### The random byte source (R13, R33) -/

/-- `draw8()`: the next random byte, any value at all (log 1). -/
def State.draw8 (s : State) : Byte := Config.drawByte s.drawIndex

/-- The next draw is another one. -/
def State.drawn (s : State) : State := { s with drawIndex := s.drawIndex + 1 }

/-! ### Faults (R12, R203) -/

/-- `raise E(info)`. -/
def raise (cause : Cause) (info : Option Nat) : Result := .fault (.raised cause info)

/-- The code of a cause (R201, D23). -/
def Cause.code : Cause → Nat
  | .memRangeFetch => 1
  | .memRangeRead => 2
  | .memRangeWrite => 3
  | .stackOverflow => 4
  | .stackUnderflow => 5
  | .keyRange => 6
  | .imageTooLarge => 16

/-- The record of a fault raised in the cycle of address `a` and fetched word `w` (R203). -/
def Fault.record (a : Word) (w : Option Word) : Fault → Fault
  | .raised cause info => .recorded { cause := cause, pc := a, word := w, info := info }
  | .recorded r => .recorded r

/-- Fault entry (R203): "the resulting state is `s` with only its fault record changed". There is no return
from it (R205); re-initialization is in Machine/HostInterface.lean. DEDUCED: log 4. -/
def State.takeFault (s : State) (r : FaultRecord) : State := { s with fault := some r }

/-! ### The parts of the cycle (R83) -/

/-- The word at the pc: two consecutive bytes, high byte first (R52). -/
def State.word (s : State) : Word := wordOfBytes (s.M.read s.pc.toNat) (s.M.read (s.pc.toNat + 1))

/-- The fetch: the word at the pc, or MEM_RANGE_FETCH with the pc as info. -/
def fetch (s : State) : Except Fault Word :=
  if 0xFFE < s.pc.toNat then .error (.raised .memRangeFetch (some s.pc.toNat))
  else .ok s.word

/-- `if T > 0: T <- T - 1` (R210). -/
def tickTimer (t : Byte) : Byte := if 0 < t.toNat then t - 1 else t

/-- The end of a cycle that does not fault: each timer ticks (R210). -/
def State.tick (s : State) : State := (s.setDT (tickTimer s.DT)).setST (tickTimer s.ST)

/-- How the cycle of address `a` and word `w` ends, from what the instruction answered: the tick after a next
state, the record after a fault (R83, R203). -/
def finishCycle (a : Word) (w : Word) : Result → Result
  | .next t => .next t.tick
  | .fault f => .fault (f.record a (some w))
  | .refused r => .refused r

/-- A word stored where the fetch at address `a` reads it, if there is such a place (R52). -/
def Memory.placeWord (m : Memory) (a : Nat) (w : Word) : Memory :=
  if a ≤ 0xFFE then (m.write a (hiByte w)).write (a + 1) (loByte w) else m

end Sys2Proof.Machine
end

