-- ==== Sys2Proof/Machine/Flags.lean ====
section
/-! DEFINITION. The values the six flag-writing instructions give VF (10_state.md R34). -/

namespace Sys2Proof.Machine

/-- A truth value as VF holds it: 1 or 0. -/
def flagByte (c : Bool) : Byte := if c then 1 else 0

/-- ADD Vx, Vy: 1 if the exact sum exceeds 255 (R126). -/
def carryFlag (a b : Byte) : Byte := flagByte (255 < a.toNat + b.toNat)

/-- SUB and SUBN: 1 if the first operand is strictly greater (R127, R129, R132). -/
def greaterFlag (a b : Byte) : Byte := flagByte (b.toNat < a.toNat)

/-- SHR: bit 0 before the shift (R128). -/
def lowBitFlag (a : Byte) : Byte := a &&& 1

/-- SHL: bit 7 before the shift (R130). -/
def highBitFlag (a : Byte) : Byte := (a >>> 7) &&& 1

/-- DRW: 1 if a toggle turned a pixel off (R173). -/
def collisionFlag (hit : Bool) : Byte := flagByte hit

end Sys2Proof.Machine
end

