-- ==== Sys2Proof/Machine/Operands.lean ====
section
/-! DEFINITION. The operand forms: immediates, the index register with an offset, key indexes. Registers are
read through `State.reg`. -/

namespace Sys2Proof.Machine

/-- `zext_16(nnn)` (30_encoding.md R73). -/
def zextNnn (nnn : Addr12) : Word := nnn.setWidth 16

/-- The address `I + k`, the unbounded sum (20_memory.md R60). -/
def State.addr (s : State) (k : Nat) : Nat := s.I.toNat + k

/-- The lowest address out of range among the `count` addresses from `base`, if one is (R59, R156):
`max(base, 0x1000)`. -/
def badAddr (base count : Nat) : Option Nat :=
  if 0 < count ∧ 0xFFF < base + count - 1 then some (max base 0x1000) else none

/-- An instruction that touches the `count` bytes from I checks them all before any effect (R156). -/
def State.withSpan (s : State) (cause : Cause) (count : Nat) (effect : Result) : Result :=
  match badAddr (s.addr 0) count with
  | some a => raise cause (some a)
  | none => effect

/-- The `count` bytes from I, ascending (R53). -/
def State.readSpan (s : State) (count : Nat) : List Byte :=
  (List.range count).map fun k => s.M.read (s.addr k)

/-- `M[I + k] <- bs[k]` for every k, ascending (R53). -/
def State.writeSpan (s : State) (bs : List Byte) : State := s.setM (s.M.writeBytes (s.addr 0) bs)

/-- `V[0] .. V[count - 1]`. -/
def State.firstRegs (s : State) (count : Nat) : List Byte :=
  (List.finRange 16).take count |>.map s.reg

/-- `V[k] <- M[I + k]` for k = 0 .. count - 1; the addresses were latched with I (R14). -/
def State.loadRegs (s : State) (count : Nat) : State :=
  { s with V := Vector.ofFn fun k => if k.val < count then s.M.read (s.addr k.val) else s.reg k }

/-- The key that `V[x]` names, or KEY_RANGE with `V[x]` when there is no such key (R180, D10). -/
def State.withKey (s : State) (x : RegIdx) (effect : KeyIdx → Result) : Result :=
  if h : (s.reg x).toNat < 16 then effect ⟨(s.reg x).toNat, h⟩
  else raise .keyRange (some (s.reg x).toNat)

/-- `key[k]`. -/
def State.pressed (s : State) (k : KeyIdx) : Bool := s.key[k]

/-- The scan of wait-for-key: keys 0 to 15 ascending, the last pressed one wins (R185). -/
def State.scanKeys (s : State) : Option KeyIdx :=
  (List.finRange 16).foldl (fun found k => if s.pressed k then some k else found) none

/-- A skip whose condition is `c`, from the post-fetch pc (R109). -/
def State.skipIf (s : State) (c : Bool) : State := if c then s.advancePc else s

/-- A digit of `v` as a byte of memory: hundreds, tens, ones (R153). -/
def bcdDigits (v : Byte) : List Byte :=
  [BitVec.ofNat 8 (v.toNat / 100), BitVec.ofNat 8 (v.toNat / 10 % 10), BitVec.ofNat 8 (v.toNat % 10)]

/-- The address of the glyph of `v`: `0x50 + 5 * v`, the whole byte (R152). -/
def glyphAddr (v : Byte) : Word := BitVec.ofNat 16 (Config.fontBase + 5 * v.toNat)

end Sys2Proof.Machine
end

