-- ==== Sys2Proof/Machine/Alu.lean ====
section
/-! DEFINITION. Register and ALU instructions (41_alu.md). Operands are read from the entry state `s`; where the
flag is written, it is written before the destination (00_scope.md R14, 41_alu.md R132). -/

namespace Sys2Proof.Machine

/-- LD Vx, kk (R120). -/
def execLdImm (x : RegIdx) (kk : Byte) (s : State) : Result := .next (s.setReg x kk)

/-- ADD Vx, kk (R121): no flag. -/
def execAddImm (x : RegIdx) (kk : Byte) (s : State) : Result := .next (s.setReg x (s.reg x + kk))

/-- LD Vx, Vy (R122). -/
def execLdReg (x y : RegIdx) (s : State) : Result := .next (s.setReg x (s.reg y))

/-- OR Vx, Vy (R123): no flag. -/
def execOr (x y : RegIdx) (s : State) : Result := .next (s.setReg x (s.reg x ||| s.reg y))

/-- AND Vx, Vy (R124): no flag. -/
def execAnd (x y : RegIdx) (s : State) : Result := .next (s.setReg x (s.reg x &&& s.reg y))

/-- XOR Vx, Vy (R125): no flag. -/
def execXor (x y : RegIdx) (s : State) : Result := .next (s.setReg x (s.reg x ^^^ s.reg y))

/-- `VF <- flag; V[x] <- value`, both computed from the latched operands. -/
def State.setFlagThenReg (s : State) (flag : Byte) (x : RegIdx) (value : Byte) : State :=
  (s.setFlag flag).setReg x value

/-- ADD Vx, Vy (R126). -/
def execAddReg (x y : RegIdx) (s : State) : Result :=
  .next (s.setFlagThenReg (carryFlag (s.reg x) (s.reg y)) x (s.reg x + s.reg y))

/-- SUB Vx, Vy (R127). -/
def execSub (x y : RegIdx) (s : State) : Result :=
  .next (s.setFlagThenReg (greaterFlag (s.reg x) (s.reg y)) x (s.reg x - s.reg y))

/-- SHR Vx (R128). -/
def execShr (x : RegIdx) (s : State) : Result :=
  .next (s.setFlagThenReg (lowBitFlag (s.reg x)) x (s.reg x >>> 1))

/-- SUBN Vx, Vy (R129). -/
def execSubn (x y : RegIdx) (s : State) : Result :=
  .next (s.setFlagThenReg (greaterFlag (s.reg y) (s.reg x)) x (s.reg y - s.reg x))

/-- SHL Vx (R130). -/
def execShl (x : RegIdx) (s : State) : Result :=
  .next (s.setFlagThenReg (highBitFlag (s.reg x)) x (s.reg x <<< 1))

/-- RND Vx, kk (R131): one draw, then AND with `kk`. -/
def execRnd (x : RegIdx) (kk : Byte) (s : State) : Result := .next (s.drawn.setReg x (s.draw8 &&& kk))

end Sys2Proof.Machine
end

