-- ==== Sys2Proof/Machine/Control.lean ====
section
/-! DEFINITION. Control transfer (40_control.md). On entry the pc is the post-fetch pc, A + 2 (R109). -/

namespace Sys2Proof.Machine

/-- RET (R100). -/
def execRet (s : State) : Result :=
  match s.pop with
  | none => raise .stackUnderflow none
  | some (a, t) => .next (t.setPc a)

/-- JP nnn (R101). -/
def execJp (nnn : Addr12) (s : State) : Result := .next (s.setPc (zextNnn nnn))

/-- CALL nnn (R102). -/
def execCall (nnn : Addr12) (s : State) : Result :=
  match s.push s.pc with
  | none => raise .stackOverflow none
  | some t => .next (t.setPc (zextNnn nnn))

/-- SE Vx, kk (R103). -/
def execSeImm (x : RegIdx) (kk : Byte) (s : State) : Result := .next (s.skipIf (s.reg x == kk))

/-- SNE Vx, kk (R104). -/
def execSneImm (x : RegIdx) (kk : Byte) (s : State) : Result := .next (s.skipIf (s.reg x != kk))

/-- SE Vx, Vy (R105). -/
def execSeReg (x y : RegIdx) (s : State) : Result := .next (s.skipIf (s.reg x == s.reg y))

/-- SNE Vx, Vy (R106). -/
def execSneReg (x y : RegIdx) (s : State) : Result := .next (s.skipIf (s.reg x != s.reg y))

/-- JP V0, nnn (R107): the sum is not reduced mod 4096. -/
def execJpV0 (nnn : Addr12) (s : State) : Result :=
  .next (s.setPc ((s.reg 0).setWidth 16 + zextNnn nnn))

end Sys2Proof.Machine
end

