-- ==== Sys2Proof/Machine/Sprite.lean ====
section
/-! DEFINITION. Drawing a sprite into the display buffer and detecting a collision (43_display.md R171 to R173). -/

namespace Sys2Proof.Machine

/-- `D[row][col]`. -/
def Display.get (d : Display) (row : Fin 32) (col : Fin 64) : Bool := d[row][col]

/-- `D[row][col] <- D[row][col] XOR 1`. -/
def Display.toggle (d : Display) (row : Fin 32) (col : Fin 64) : Display :=
  d.set row (d[row].set col (!d.get row col))

/-- Every pixel off (R170). -/
def Display.clear : Display := Vector.replicate 32 (Vector.replicate 64 false)

/-- SPRITE_EDGE as the machine uses it (R172). -/
def spriteEdge : Config.SpriteEdge := Config.spriteEdge

/-- `Place(px, py)` as (row, column), `none` for a pixel that `Clip` ignores (R172). -/
def place (edge : Config.SpriteEdge) (px py : Nat) : Option (Fin 32 × Fin 64) :=
  match edge with
  | .clip => if h : px < 64 ∧ py < 32 then some (⟨py, h.2⟩, ⟨px, h.1⟩) else none
  | .wrap => some (⟨py % 32, Nat.mod_lt _ (by omega)⟩, ⟨px % 64, Nat.mod_lt _ (by omega)⟩)

/-- The display while it is drawn, and `hit`. -/
structure Canvas where
  display : Display
  hit : Bool
deriving DecidableEq, Repr

/-- One sprite bit that is 1, at column `px` and row `py` before the edge rule: the pixel is toggled, and counts
as a hit if it was on (R173). -/
def Canvas.plot (c : Canvas) (edge : Config.SpriteEdge) (px py : Nat) : Canvas :=
  match place edge px py with
  | some (row, col) => { display := c.display.toggle row col, hit := c.hit || c.display.get row col }
  | none => c

/-- One row of the sprite, most-significant bit leftmost. -/
def Canvas.drawRow (c : Canvas) (edge : Config.SpriteEdge) (xo py : Nat) (b : Byte) : Canvas :=
  (List.range 8).foldl (fun c k => if b.getLsbD (7 - k) then c.plot edge (xo + k) py else c) c

/-- The rows of the sprite from row `py` on. -/
def Canvas.drawRows (c : Canvas) (edge : Config.SpriteEdge) (xo py : Nat) : List Byte → Canvas
  | [] => c
  | b :: bs => Canvas.drawRows (c.drawRow edge xo py b) edge xo (py + 1) bs

/-- A whole sprite on a display, `hit` 0 before drawing (R171). -/
def drawSprite (edge : Config.SpriteEdge) (d : Display) (xo yo : Nat) (sprite : List Byte) : Canvas :=
  Canvas.drawRows { display := d, hit := false } edge xo yo sprite

/-- The column of the sprite's left edge: `V[x] mod 64` (R171). -/
def originCol (v : Byte) : Nat := v.toNat % 64

/-- The row of the sprite's top edge: `V[y] mod 32` (R171). -/
def originRow (v : Byte) : Nat := v.toNat % 32

end Sys2Proof.Machine
end

