-- ==== Sys2Proof/Machine/Display.lean ====
section
/-! DEFINITION. Display instructions (43_display.md). -/

namespace Sys2Proof.Machine

/-- CLS (R170): VF is unchanged. -/
def execCls (s : State) : Result := .next (s.setD Display.clear)

/-- The display and the hit that DRW Vx, Vy, n leaves: the origin is latched before VF is written (R171). -/
def State.drawing (s : State) (x y : RegIdx) (n : Fin 16) : Canvas :=
  drawSprite spriteEdge s.D (originCol (s.reg x)) (originRow (s.reg y)) (s.readSpan n.val)

/-- DRW Vx, Vy, n (R171): with n = 0 no byte is read and no address checked. -/
def execDrw (x y : RegIdx) (n : Fin 16) (s : State) : Result :=
  s.withSpan .memRangeRead n.val
    (.next ((s.setD (s.drawing x y n).display).setFlag (collisionFlag (s.drawing x y n).hit)))

end Sys2Proof.Machine
end

