-- ==== Sys2Proof/Machine/Index.lean ====
section
/-! DEFINITION. Index register and memory instructions (42_index_memory.md). Every address is checked before any
effect (R156); none changes I unless its rule says so. -/

namespace Sys2Proof.Machine

/-- LD I, nnn (R150). -/
def execLdI (nnn : Addr12) (s : State) : Result := .next (s.setI (zextNnn nnn))

/-- ADD I, Vx (R151): mod 2^16, no flag. -/
def execAddI (x : RegIdx) (s : State) : Result := .next (s.setI (s.I + (s.reg x).setWidth 16))

/-- LD F, Vx (R152). -/
def execLdF (x : RegIdx) (s : State) : Result := .next (s.setI (glyphAddr (s.reg x)))

/-- LD B, Vx (R153). -/
def execLdB (x : RegIdx) (s : State) : Result :=
  s.withSpan .memRangeWrite 3 (.next (s.writeSpan (bcdDigits (s.reg x))))

/-- LD [I], Vx (R154). -/
def execStRegs (x : RegIdx) (s : State) : Result :=
  s.withSpan .memRangeWrite (x.val + 1) (.next (s.writeSpan (s.firstRegs (x.val + 1))))

/-- LD Vx, [I] (R155). -/
def execLdRegs (x : RegIdx) (s : State) : Result :=
  s.withSpan .memRangeRead (x.val + 1) (.next (s.loadRegs (x.val + 1)))

end Sys2Proof.Machine
end

