-- ==== Sys2Proof/Machine/Keys.lean ====
section
/-! DEFINITION. Keypad and timer instructions (44_keys_timers.md). The tick comes after them, in the cycle (R186). -/

namespace Sys2Proof.Machine

/-- SKP Vx (R180). -/
def execSkp (x : RegIdx) (s : State) : Result := s.withKey x fun k => .next (s.skipIf (s.pressed k))

/-- SKNP Vx (R181). -/
def execSknp (x : RegIdx) (s : State) : Result := s.withKey x fun k => .next (s.skipIf (!s.pressed k))

/-- LD Vx, DT (R182). -/
def execLdVxDt (x : RegIdx) (s : State) : Result := .next (s.setReg x s.DT)

/-- LD DT, Vx (R183). -/
def execLdDtVx (x : RegIdx) (s : State) : Result := .next (s.setDT (s.reg x))

/-- LD ST, Vx (R184). -/
def execLdStVx (x : RegIdx) (s : State) : Result := .next (s.setST (s.reg x))

/-- LD Vx, K (R185): with no key pressed the pc steps back and the same instruction is fetched again. -/
def execLdVxK (x : RegIdx) (s : State) : Result :=
  match s.scanKeys with
  | none => .next s.rewindPc
  | some k => .next (s.setReg x (BitVec.ofNat 8 k.val))

end Sys2Proof.Machine
end

