-- ==== Sys2Proof/Machine/Nop.lean ====
section
/-! DEFINITION. The no-op handler (30_encoding.md R79): it reads nothing and writes nothing; the pc advance of the
fetch and the tick of the cycle stand. One definition for each table that falls back to it. -/

namespace Sys2Proof.Machine

/-- The no-op handler itself. -/
def inert (s : State) : Result := .next s

/-- Reached through table 0 (R75). -/
def execNop0 (s : State) : Result := inert s

/-- Reached through table 8 (R76). -/
def execNop8 (s : State) : Result := inert s

/-- Reached through table E (R77). -/
def execNopE (s : State) : Result := inert s

/-- Reached through table F (R78). -/
def execNopF (s : State) : Result := inert s

end Sys2Proof.Machine
end

