-- ==== Sys2Proof/Machine/Step.lean ====
section
/-! DEFINITION. One call of the cycle driver (30_encoding.md R83). -/

namespace Sys2Proof.Machine

/-- The cycle of a state with no fault recorded: fetch, advance the pc, decode, execute, tick (R83). -/
def cycle (s : State) : Host.Outcome State Fault Refusal :=
  match fetch s with
  | .error f => .fault (f.record s.pc none)
  | .ok w => finishCycle s.pc w (exec (decode w) s.advancePc)

/-- A step is one cycle; "a state with a fault recorded has no cycle" and answers its record (R83, R203). -/
def step (s : State) : Host.Outcome State Fault Refusal :=
  match s.fault with
  | some r => .fault (.recorded r)
  | none => cycle s

/-- `s` with an instruction, its bits numbered as the opcode table numbers them, where the next fetch reads it. -/
def State.withFetchWord (s : State) (nbits w : Nat) : State :=
  s.setM (s.M.placeWord s.pc.toNat (tableWord nbits w))

end Sys2Proof.Machine
end

