-- ==== Sys2Proof/Machine/HostInterface.lean ====
section
/-! DEFINITION. What the host does at the core's boundary, between cycles (60_exceptions.md R216), and what it
observes (R217). None of this is a step of the core. DESIGN CHOICE: how a program comes to run is log 9, how keys
come to change log 10. -/

namespace Sys2Proof.Machine

/-- Load (70_reset_and_hazards.md R231): byte j of the image goes to `M[0x200 + j]`; an image longer than 3584
bytes is refused and nothing is loaded. -/
def loadImage (image : List Byte) (s : State) : Result :=
  if image.length ≤ Config.maxImage then .next (s.setM (s.M.writeBytes Config.programBase image))
  else .refused (.imageTooLarge image.length)

/-- `Reset(image)` (R230): initialization, then the load. -/
def resetWith (image : List Byte) : Result := loadImage image State.reset

/-- Re-initialization at any time between cycles: the same procedure, which discards everything, a fault record
included (R205, R230). -/
def reinitialize (image : List Byte) (_ : State) : Result := resetWith image

/-- The host writes the key state, between cycles only (R30, D19). -/
def State.setKeys (s : State) (keys : Keys) : State := { s with key := keys }

/-- The state the host sees after a call of the cycle driver: the next state, or the start state with only its
fault record changed (R203, R216). No cycle is refused (R81). -/
def afterCycle (s : State) : State :=
  match step s with
  | .next t => t
  | .fault (.recorded r) => s.takeFault r
  | .fault (.raised _ _) => s
  | .refused _ => s

/-- One cycle for each element of the list, the host setting the keys before each; it ends at the first fault,
with the record (R216, R217 (a)). -/
def runKeys : List Keys → State → Result
  | [], s => .next s
  | ks :: rest, s =>
    match step (s.setKeys ks) with
    | .next t => runKeys rest t
    | .fault f => .fault f
    | .refused r => .refused r

/-- The display consumer's view: it reads every pixel and changes nothing (R216). -/
def readDisplay (s : State) : Display := s.D

/-- The audio consumer's view: the sound timer's value (R211, R216). -/
def readSoundTimer (s : State) : Byte := s.ST

/-- The Idle observation (R217 (b)): no fault, and the word at the pc is a jump to its own address. -/
def State.isIdle (s : State) : Bool :=
  s.fault.isNone && decide (s.pc.toNat ≤ 0xFFE) && (s.word == (0x1000#16 ||| s.pc))

end Sys2Proof.Machine
end

