-- ==== Sys2Proof/Safety.lean ====
section
/-! DEFINITION. The terms in which claims are stated: what may change in a step, what every state of a run keeps,
and what a safe run is. -/

namespace Sys2Proof.Machine

/-- What an instruction may write, the pc apart: registers, I, the stack with its pointer, the timers, the
display, the draw counter, and the addresses of memory it stores to. -/
structure Writes where
  regs : List RegIdx := []
  I : Bool := false
  stack : Bool := false
  DT : Bool := false
  ST : Bool := false
  D : Bool := false
  draw : Bool := false
  mem : List Nat := []

/-- Nothing outside `w` differs between `s` and `t`, the pc apart. The key state and the fault record are in no
instruction's reach (10_state.md R30, R32). -/
structure Frame (w : Writes) (s t : State) : Prop where
  regs : ∀ r, r ∉ w.regs → t.reg r = s.reg r
  I : w.I = false → t.I = s.I
  SP : w.stack = false → t.SP = s.SP
  stack : w.stack = false → t.stack = s.stack
  DT : w.DT = false → t.DT = s.DT
  ST : w.ST = false → t.ST = s.ST
  D : w.D = false → t.D = s.D
  draw : w.draw = false → t.drawIndex = s.drawIndex
  key : t.key = s.key
  fault : t.fault = s.fault
  mem : ∀ a, a ∉ w.mem → t.M.read a = s.M.read a

/-- The addresses `I + k`, k = 0 .. count - 1, as a meaning computes them (20_memory.md R60). -/
def State.span (s : State) (count : Nat) : List Nat := (List.range count).map s.addr

/-- What address `a` reads after the bytes of these values were stored from I on: the one stored there, if one was, and
else what it read before (20_memory.md R53, R62). -/
def State.byteAfterStore (s : State) (values : List Nat) (a : Nat) : Byte :=
  if s.addr 0 ≤ a ∧ a < s.addr values.length then BitVec.ofNat 8 (values.getD (a - s.addr 0) 0) else s.M.read a

/-- What every reachable state keeps (70_reset_and_hazards.md R233) and what makes it inductive: the memory is in
its canonical form, the pc is at most 0x10FE, and no stack slot holds more than 0x1000, the largest post-fetch pc a
CALL can save. The widths and SP in 0..16 are in the types. -/
structure State.Inv (s : State) : Prop where
  mem : s.M.wf = true
  pc : s.pc.toNat ≤ 0x10FE
  stack : ∀ j : Fin 16, (s.stack[j]).toNat ≤ 0x1000

/-- A sprite bit that is 1 lands on pixel (row, col): row `r` and column `k` of the sprite, placed by the edge rule
(43_display.md R171, R172). -/
def Lands (edge : Config.SpriteEdge) (xo yo : Nat) (sprite : List Byte) (row : Fin 32) (col : Fin 64) : Prop :=
  ∃ r k : Nat, k < 8 ∧ (∃ b : Byte, sprite[r]? = some b ∧ b.getLsbD (7 - k) = true) ∧
    place edge (xo + k) (yo + r) = some (row, col)

/-- A run of `k` cycles with no fault. -/
def SafeRun (k : Nat) (s : State) : Prop := ∃ t, Sys2Proof.core.run k s = .next t

end Sys2Proof.Machine
end

