-- ==== Sys2Proof/Certificates/Slice0/Obligations.lean ====
section
/-! DEFINITION. The statements for the provers. In a statement about `exec`, the state `s` is the one after the
fetch, so `s.pc` is the post-fetch pc, A + 2 (40_control.md R109).
"D<n>" names a decision of 92_eei_decisions.md: a clause so marked is what the spec decided, not what its source says. -/

open Sys2Proof Sys2Proof.Machine

/-! ### Encoding -/

/-- Every well-formed instruction is read back from its word, and from the head of any sequence of bytes. -/
def Obligations.DecodeOfEncodeIsTheInstruction : Prop :=
  ∀ i : Instr, i.wf = true →
    decode (encode i) = i ∧ ∀ rest : List Byte, decodeBytes (encodeBytes i ++ rest) = .ok (i, rest)

/-- R81 with the opcode table: every word decodes to a well-formed instruction whose row's `match` and `mask` select
the word, and whose own word has the same bits as this one wherever the instruction names them; a word that no table
maps is the very word its no-op carries (log 12). -/
def Obligations.EveryWordDecodesByItsRow : Prop :=
  ∀ w : Word, (decode w).wf = true ∧ w &&& (decode w).opMask = (decode w).opMatch ∧
    encode (decode w) &&& (decode w).named = w &&& (decode w).named ∧
    ∀ rest : Addr12, decode w ∈ [Instr.nop0 rest, .nop8 rest, .nopE rest, .nopF rest] → encode (decode w) = w

/-- R80 (an inference the spec marks as its own, from R74 to R78), and R79 for the no-op, which has no operands: two
words that differ only in bits the dispatch or the handler does not name run alike from every state. -/
def Obligations.IgnoredBitsNeverChangeTheResult : Prop :=
  ∀ (w w' : Word) (s : State), w &&& (decode w).named = w' &&& (decode w).named →
    exec (decode w') s = exec (decode w) s

/-- Words written out from the encoding strings of opcode_table.json; the opcode values are D1, the field n is D2
(log 13). -/
def Obligations.SomeWordsDecodeAsWritten : Prop :=
  decode 0b0000000011100000#16 = .cls ∧ decode 0b0000000011101110#16 = .ret ∧
  decode 0b0010101010111100#16 = .call 0xABC ∧ decode 0b0011010110000001#16 = .seImm 5 0x81 ∧
  decode 0b1000000111110101#16 = .sub 1 15 ∧ decode 0b1010001100000000#16 = .ldI 0x300 ∧
  decode 0b1101000100101111#16 = .drw 1 2 15 ∧ decode 0b1110011110011110#16 = .skp 7 ∧
  decode 0b1111101000110011#16 = .ldB 10 ∧ decode 0b1111000001100110#16 = .nopF 0x066

/-- What the host places by `withFetchWord` is the word the next fetch reads, and `decodeTableWord` answers what that
word decodes to; no other byte of memory reads otherwise, and nothing but memory differs. The state's memory is in its
canonical form (log 2); `withFetchWord` is the model's own operation (log 9). -/
def Obligations.FetchWordIsFetched : Prop :=
  ∀ (s : State) (nbits w : Nat), s.M.wf = true → s.pc.toNat ≤ 0xFFE →
    fetch (s.withFetchWord nbits w) = .ok (tableWord nbits w) ∧
    decodeTableWord nbits w = some (decode (tableWord nbits w)) ∧
    (∀ a, a ≠ s.pc.toNat → a ≠ s.pc.toNat + 1 → (s.withFetchWord nbits w).M.read a = s.M.read a) ∧
    s.withFetchWord nbits w = { s with M := (s.withFetchWord nbits w).M }

/-! ### The cycle -/

/-- R83: a step from a state with no fault recorded and the pc in range is the decoded instruction's effect on the
post-fetch state and then the tick; a fault the instruction raises becomes the record of this cycle (R203, D12); a pc
above 0xFFE raises MEM_RANGE_FETCH (R52, D4); a state with a fault recorded has no cycle. That `step` then answers
the record, as a fault outcome, is the model's reading: log 4. -/
def Obligations.StepRunsTheDecodedInstruction : Prop :=
  ∀ s : State,
    (∀ r, s.fault = some r → step s = .fault (.recorded r)) ∧
    (s.fault = none → 0xFFE < s.pc.toNat →
      step s = .fault (.recorded { cause := .memRangeFetch, pc := s.pc, word := none, info := some s.pc.toNat })) ∧
    (∀ i, s.fault = none → s.pc.toNat ≤ 0xFFE →
      decodeBytes [s.M.read s.pc.toNat, s.M.read (s.pc.toNat + 1)] = .ok (i, []) →
      (∀ t, exec i { s with pc := s.pc + 2 } = .next t →
        ∃ u, step s = .next u ∧ u.DT.toNat = t.DT.toNat - 1 ∧ u.ST.toNat = t.ST.toNat - 1 ∧
          u = { t with DT := u.DT, ST := u.ST }) ∧
      (∀ c info, exec i { s with pc := s.pc + 2 } = .fault (.raised c info) →
        step s = .fault (.recorded
          ⟨c, s.pc, some (wordOfBytes (s.M.read s.pc.toNat) (s.M.read (s.pc.toNat + 1))), info⟩)))

/-- R203, R205 (D12, D30): a cycle that faults answers the record of its own address and word, the state the host
then sees is the start state with only its fault record changed, and from there every step answers the same record.
That `step` answers it as a fault outcome: log 4. -/
def Obligations.FaultsArePreciseAndSticky : Prop :=
  ∀ (s : State) (f : Fault), s.fault = none → step s = .fault f →
    ∃ r : FaultRecord, f = .recorded r ∧ r.pc = s.pc ∧
      (r.word = none ∧ r.cause = .memRangeFetch ∧ r.info = some s.pc.toNat ∧ 0xFFE < s.pc.toNat ∨
        r.word = some (wordOfBytes (s.M.read s.pc.toNat) (s.M.read (s.pc.toNat + 1))) ∧ s.pc.toNat ≤ 0xFFE ∧
        exec (decode (wordOfBytes (s.M.read s.pc.toNat) (s.M.read (s.pc.toNat + 1)))) { s with pc := s.pc + 2 } =
          .fault (.raised r.cause r.info)) ∧
      afterCycle s = { s with fault := some r } ∧ step (afterCycle s) = .fault f ∧
      afterCycle (afterCycle s) = afterCycle s

/-- R201, R202: which instruction raises what, exactly when, with which info (D4, D7, D8, D10, D23). -/
def Obligations.OnlyTheTabledInstructionsFault : Prop :=
  ∀ (i : Instr) (s : State) (f : Fault), exec i s = .fault f ↔
    (∃ nnn, i = .call nnn ∧ s.SP.val = 16 ∧ f = .raised .stackOverflow none) ∨
    (i = .ret ∧ s.SP.val = 0 ∧ f = .raised .stackUnderflow none) ∨
    (∃ x, (i = .skp x ∨ i = .sknp x) ∧ 15 < (s.reg x).toNat ∧ f = .raised .keyRange (some (s.reg x).toNat)) ∨
    (∃ x y n, i = .drw x y n ∧ 0 < n.val ∧ 0xFFF < s.I.toNat + n.val - 1 ∧
      f = .raised .memRangeRead (some (max s.I.toNat 0x1000))) ∨
    (∃ x, i = .ldRegs x ∧ 0xFFF < s.I.toNat + x.val ∧ f = .raised .memRangeRead (some (max s.I.toNat 0x1000))) ∨
    (∃ x, i = .stRegs x ∧ 0xFFF < s.I.toNat + x.val ∧ f = .raised .memRangeWrite (some (max s.I.toNat 0x1000))) ∨
    (∃ x, i = .ldB x ∧ 0xFFF < s.I.toNat + 2 ∧ f = .raised .memRangeWrite (some (max s.I.toNat 0x1000)))

/-- No instruction and no cycle is ever refused: a cycle ends in a next state or in a recorded fault. -/
def Obligations.NoCycleIsRefused : Prop :=
  (∀ (i : Instr) (s : State) (q : Refusal), exec i s ≠ .refused q) ∧
  ∀ s : State, (∃ t, step s = .next t) ∨ ∃ r, step s = .fault (.recorded r)

/-- R25: the pc after the cycle, by instruction; `s.pc` here is the instruction's own address A. -/
def Obligations.PcAfterEveryCycle : Prop :=
  State.reset.pc = 0x200 ∧
  ∀ s t : State, step s = .next t →
    match decode s.word with
    | .jp nnn | .call nnn => t.pc.toNat = nnn.toNat
    | .jpV0 nnn => t.pc.toNat = (s.reg 0).toNat + nnn.toNat
    | .ret => ∀ j : Fin 16, j.val + 1 = s.SP.val → t.pc = s.stack[j]
    | .seImm x kk => t.pc = if s.reg x = kk then s.pc + 4 else s.pc + 2
    | .sneImm x kk => t.pc = if s.reg x = kk then s.pc + 2 else s.pc + 4
    | .seReg x y => t.pc = if s.reg x = s.reg y then s.pc + 4 else s.pc + 2
    | .sneReg x y => t.pc = if s.reg x = s.reg y then s.pc + 2 else s.pc + 4
    | .skp x => ∀ k : KeyIdx, k.val = (s.reg x).toNat → t.pc = if s.key[k] then s.pc + 4 else s.pc + 2
    | .sknp x => ∀ k : KeyIdx, k.val = (s.reg x).toNat → t.pc = if s.key[k] then s.pc + 2 else s.pc + 4
    | .ldVxK _ => t.pc = if ∀ k : KeyIdx, s.key[k] = false then s.pc else s.pc + 2
    | _ => t.pc = s.pc + 2

/-! ### Reset and load -/

/-- R230, R231: `Reset(image)` gives every component its value, FONT and the image in memory, or refuses the image.
The values other than pc, the font region and the image are D13, the font's bytes D3, the refusal D14. -/
def Obligations.ResetLoadsTheImage : Prop :=
  ∀ image : List Byte,
    (image.length ≤ 3584 → ∃ t, resetWith image = .next t ∧
      (∀ a, t.M.read a =
        if 0x200 ≤ a ∧ a < 0x200 + image.length then image.getD (a - 0x200) 0
        else if 0x50 ≤ a ∧ a ≤ 0x9F then Config.font.getD (a - 0x50) 0 else 0) ∧
      (∀ r, t.reg r = 0) ∧ t.I = 0 ∧ t.pc = 0x200 ∧ t.SP = 0 ∧ (∀ j : Fin 16, t.stack[j] = 0) ∧ t.DT = 0 ∧ t.ST = 0 ∧
      (∀ (row : Fin 32) (col : Fin 64), t.D[row][col] = false) ∧ (∀ k : KeyIdx, t.key[k] = false) ∧
      t.fault = none) ∧
    (3584 < image.length → resetWith image = .refused (.imageTooLarge image.length))

/-- The invariant (the bound on pc is R233, that on the stack slots follows from R100, R102 and D13; the canonical
memory is log 2) holds of the state after initialization with no image. -/
def Obligations.ResetSatisfiesTheInvariant : Prop := State.reset.Inv

/-- Every cycle keeps the invariant (the bound on pc is R233, that on the stack slots follows from R100 and R102; the
canonical memory is the model's own, log 2). -/
def Obligations.StepKeepsTheInvariant : Prop :=
  ∀ s t : State, s.Inv → step s = .next t → t.Inv

/-- The invariant over whole runs: whatever image is loaded and whatever keys the host sets before each cycle, the
memory stays in its canonical form (log 2), the pc at most 0x10FE (R233) and every stack slot at most 0x1000 (from
R100, R102 and D13). -/
def Obligations.EveryReachableStateKeepsTheInvariant : Prop :=
  ∀ (image : List Byte) (keys : List Keys) (s t : State),
    resetWith image = .next s → runKeys keys s = .next t → t.Inv

/-! ### Timers, idling and waiting -/

/-- R210 for one cycle, with the two instructions that write a timer (R183, R184): the tick follows the instruction. -/
def Obligations.TimersTickAtTheEndOfEveryCycle : Prop :=
  ∀ s t : State, step s = .next t →
    ((∀ x, decode s.word ≠ .ldDtVx x) → t.DT.toNat = s.DT.toNat - 1) ∧
    (∀ x, decode s.word = .ldDtVx x → t.DT.toNat = (s.reg x).toNat - 1) ∧
    ((∀ x, decode s.word ≠ .ldStVx x) → t.ST.toNat = s.ST.toNat - 1) ∧
    (∀ x, decode s.word = .ldStVx x → t.ST.toNat = (s.reg x).toNat - 1)

/-- R210 for N cycles: with no write of the timer in them, one that held t holds max(t - N, 0), whatever the keys. -/
def Obligations.TimersAfterManyCycles : Prop :=
  ∀ (keys : List Keys) (s t : State), runKeys keys s = .next t →
    ((∀ n u, n < keys.length → runKeys (keys.take n) s = .next u → ∀ x, decode u.word ≠ .ldDtVx x) →
      t.DT.toNat = s.DT.toNat - keys.length) ∧
    ((∀ n u, n < keys.length → runKeys (keys.take n) s = .next u → ∀ x, decode u.word ≠ .ldStVx x) →
      t.ST.toNat = s.ST.toNat - keys.length)

/-- R236 (an inference the spec marks as its own): a delay timer written with v ≥ 1 is read as v - 1 by the next
instruction. -/
def Obligations.TimerWrittenThenReadNextCycle : Prop :=
  ∀ (s t u : State) (x y : RegIdx), step s = .next t → decode s.word = .ldDtVx x → 1 ≤ (s.reg x).toNat →
    step t = .next u → decode t.word = .ldVxDt y →
    t.DT.toNat = (s.reg x).toNat - 1 ∧ (u.reg y).toNat = (s.reg x).toNat - 1

/-- R217 (b) (D24): from an idle state the core runs for ever whatever keys the host sets, stays idle at the same
address, and changes nothing but the timers; the key state is the one the host set last. -/
def Obligations.IdleStateChangesOnlyTheTimers : Prop :=
  ∀ (keys : List Keys) (s : State), s.isIdle = true →
    ∃ t, runKeys keys s = .next t ∧ t.isIdle = true ∧
      t.DT.toNat = s.DT.toNat - keys.length ∧ t.ST.toNat = s.ST.toNat - keys.length ∧
      t = { s with DT := t.DT, ST := t.ST, key := keys.getLast?.getD s.key }

/-- R185, R238: while the host sets no key, wait-for-key is executed again at its own address, timers ticking, for
any number of cycles; at the first cycle with a key pressed the highest one is delivered and the program goes on. -/
def Obligations.WaitForKeyWaits : Prop :=
  ∀ (s : State) (x : RegIdx) (n : Nat), s.fault = none → s.pc.toNat ≤ 0xFFE → decode s.word = .ldVxK x →
    ∃ t, runKeys (List.replicate n (Vector.replicate 16 false)) s = .next t ∧
      t = { s with DT := t.DT, ST := t.ST, key := if n = 0 then s.key else Vector.replicate 16 false } ∧
      t.DT.toNat = s.DT.toNat - n ∧ t.ST.toNat = s.ST.toNat - n ∧
      ∀ (keys : Keys) (k : KeyIdx), keys[k] = true → (∀ j : KeyIdx, keys[j] = true → j ≤ k) →
        ∃ u, step (t.setKeys keys) = .next u ∧ (u.reg x).toNat = k.val ∧ u.pc = s.pc + 2 ∧
          ∀ r, r ≠ x → u.reg r = s.reg r

/-! ### Who writes what -/

/-- R24: I is written by set-index, add-to-index and load-font-address only, each of which gives it this value (that
the sum wraps at 16 bits is D6). -/
def Obligations.IndexRegisterWriters : Prop :=
  ∀ s t : State, step s = .next t →
    match decode s.word with
    | .ldI nnn => t.I.toNat = nnn.toNat
    | .addI x => t.I.toNat = (s.I.toNat + (s.reg x).toNat) % 2 ^ 16
    | .ldF x => t.I.toNat = 0x50 + 5 * (s.reg x).toNat
    | _ => t.I = s.I

/-- R51 (an inference the spec marks as its own), R58 (D16): the only stores are those of store-bcd and
store-registers, through I; each byte of theirs lands, whatever its address (nothing protects the font or the program),
and every other byte reads as before. The canonical memory as a premise: log 2. -/
def Obligations.MemoryWriters : Prop :=
  ∀ s t : State, s.M.wf = true → step s = .next t →
    match decode s.word with
    | .ldB x =>
      (t.M.read (s.addr 0)).toNat = (s.reg x).toNat / 100 ∧
      (t.M.read (s.addr 1)).toNat = (s.reg x).toNat / 10 % 10 ∧
      (t.M.read (s.addr 2)).toNat = (s.reg x).toNat % 10 ∧
      ∀ a, a ∉ s.span 3 → t.M.read a = s.M.read a
    | .stRegs x =>
      (∀ k : RegIdx, k ≤ x → t.M.read (s.addr k.val) = s.reg k) ∧
      ∀ a, a ∉ s.span (x.val + 1) → t.M.read a = s.M.read a
    | _ => ∀ a, t.M.read a = s.M.read a

/-- R26, R27: CALL increments SP and writes the slot, RET decrements SP and clears no slot (D26), nothing else writes
SP or the stack. -/
def Obligations.StackWriters : Prop :=
  ∀ s t : State, step s = .next t →
    match decode s.word with
    | .call _ => t.SP.val = s.SP.val + 1 ∧
        ∀ j : Fin 16, t.stack[j] = if j.val = s.SP.val then s.pc + 2 else s.stack[j]
    | .ret => t.SP.val + 1 = s.SP.val ∧ t.stack = s.stack
    | _ => t.SP = s.SP ∧ t.stack = s.stack

/-- R29: only clear-display and draw-sprite write the display; R30, R32: no cycle writes the key state, and no
cycle that ends in a next state sets the fault record. R13: only random-masked draws, once
(that draws are numbered is the model's choice, log 1). -/
def Obligations.DisplayKeyFaultAndDrawWriters : Prop :=
  ∀ s t : State, step s = .next t →
    (t.D ≠ s.D → decode s.word = .cls ∨ ∃ x y n, decode s.word = .drw x y n) ∧
    t.key = s.key ∧ s.fault = none ∧ t.fault = none ∧
    ((∃ x kk, decode s.word = .rnd x kk) → t.drawIndex = s.drawIndex + 1) ∧
    ((∀ x kk, decode s.word ≠ .rnd x kk) → t.drawIndex = s.drawIndex)

/-- R34: an instruction that changes VF is one of the six that write it as a flag, or has VF as its destination. -/
def Obligations.FlagWriters : Prop :=
  ∀ (i : Instr) (s t : State), exec i s = .next t → t.reg VF ≠ s.reg VF →
    (∃ x y, i = .addReg x y ∨ i = .sub x y ∨ i = .subn x y) ∨ (∃ x, i = .shr x ∨ i = .shl x) ∨
    (∃ x y n, i = .drw x y n) ∨
    (∃ kk, i = .ldImm VF kk ∨ i = .addImm VF kk ∨ i = .rnd VF kk) ∨
    (∃ y, i = .ldReg VF y ∨ i = .orReg VF y ∨ i = .andReg VF y ∨ i = .xorReg VF y) ∨
    i = .ldRegs VF ∨ i = .ldVxDt VF ∨ i = .ldVxK VF

/-! ### Control transfer -/

/-- R101, R107: both jumps, nothing else changed; the sum of JP V0 is not reduced (D4). -/
def Obligations.JumpResults : Prop :=
  ∀ (s : State) (nnn : Addr12),
    (∃ t, exec (.jp nnn) s = .next t ∧ t.pc.toNat = nnn.toNat ∧ Frame {} s t) ∧
    (∃ t, exec (.jpV0 nnn) s = .next t ∧ t.pc.toNat = (s.reg 0).toNat + nnn.toNat ∧ Frame {} s t)

/-- R102: CALL below 16 saves the post-fetch pc in the slot at SP; with SP = 16 it raises STACK_OVERFLOW
(D7). -/
def Obligations.CallResult : Prop :=
  ∀ (s : State) (nnn : Addr12),
    (s.SP.val < 16 → ∃ t, exec (.call nnn) s = .next t ∧ t.pc.toNat = nnn.toNat ∧ t.SP.val = s.SP.val + 1 ∧
      (∀ j : Fin 16, t.stack[j] = if j.val = s.SP.val then s.pc else s.stack[j]) ∧ Frame { stack := true } s t) ∧
    (s.SP.val = 16 → exec (.call nnn) s = .fault (.raised .stackOverflow none))

/-- R100: RET above 0 goes to the popped slot, which keeps its value (D26); with SP = 0 it raises STACK_UNDERFLOW
(D8). -/
def Obligations.ReturnResult : Prop :=
  ∀ s : State,
    (0 < s.SP.val → ∃ t, exec .ret s = .next t ∧ t.SP.val + 1 = s.SP.val ∧
      (∀ j : Fin 16, j.val + 1 = s.SP.val → t.pc = s.stack[j]) ∧ t.stack = s.stack ∧ Frame { stack := true } s t) ∧
    (s.SP.val = 0 → exec .ret s = .fault (.raised .stackUnderflow none))

/-- A RET after a CALL, from any state that has kept the call's stack, returns to the instruction after the call and
restores SP. -/
def Obligations.ReturnUndoesCall : Prop :=
  ∀ (s t u : State) (nnn : Addr12), exec (.call nnn) s = .next t → u.SP = t.SP → u.stack = t.stack →
    ∃ v, exec .ret u = .next v ∧ v.pc = s.pc ∧ v.SP = s.SP ∧ ∀ j : Fin 16, j.val < s.SP.val → v.stack[j] = s.stack[j]

/-- R103 to R106: the four skips from the post-fetch pc, nothing else changed. -/
def Obligations.SkipResults : Prop :=
  ∀ (s : State) (x y : RegIdx) (kk : Byte),
    (∃ t, exec (.seImm x kk) s = .next t ∧ (s.reg x = kk → t.pc = s.pc + 2) ∧ (s.reg x ≠ kk → t.pc = s.pc) ∧
      Frame {} s t) ∧
    (∃ t, exec (.sneImm x kk) s = .next t ∧ (s.reg x ≠ kk → t.pc = s.pc + 2) ∧ (s.reg x = kk → t.pc = s.pc) ∧
      Frame {} s t) ∧
    (∃ t, exec (.seReg x y) s = .next t ∧ (s.reg x = s.reg y → t.pc = s.pc + 2) ∧
      (s.reg x ≠ s.reg y → t.pc = s.pc) ∧ Frame {} s t) ∧
    (∃ t, exec (.sneReg x y) s = .next t ∧ (s.reg x ≠ s.reg y → t.pc = s.pc + 2) ∧
      (s.reg x = s.reg y → t.pc = s.pc) ∧ Frame {} s t)

/-! ### Registers and ALU -/

/-- R120, R121, R122: moves and add-immediate; no flag, the destination alone changes. -/
def Obligations.MoveAndAddImmediateResults : Prop :=
  ∀ (s : State) (x y : RegIdx) (kk : Byte),
    (∃ t, exec (.ldImm x kk) s = .next t ∧ t.reg x = kk ∧ t.pc = s.pc ∧ Frame { regs := [x] } s t) ∧
    (∃ t, exec (.addImm x kk) s = .next t ∧ (t.reg x).toNat = ((s.reg x).toNat + kk.toNat) % 256 ∧ t.pc = s.pc ∧
      Frame { regs := [x] } s t) ∧
    (∃ t, exec (.ldReg x y) s = .next t ∧ t.reg x = s.reg y ∧ t.pc = s.pc ∧ Frame { regs := [x] } s t)

/-- R123, R124, R125: the three bitwise operations, bit by bit; no flag. -/
def Obligations.BitwiseResults : Prop :=
  ∀ (s : State) (x y : RegIdx),
    (∃ t, exec (.orReg x y) s = .next t ∧ t.pc = s.pc ∧ Frame { regs := [x] } s t ∧
      ∀ k, (t.reg x).getLsbD k = ((s.reg x).getLsbD k || (s.reg y).getLsbD k)) ∧
    (∃ t, exec (.andReg x y) s = .next t ∧ t.pc = s.pc ∧ Frame { regs := [x] } s t ∧
      ∀ k, (t.reg x).getLsbD k = ((s.reg x).getLsbD k && (s.reg y).getLsbD k)) ∧
    (∃ t, exec (.xorReg x y) s = .next t ∧ t.pc = s.pc ∧ Frame { regs := [x] } s t ∧
      ∀ k, (t.reg x).getLsbD k = ((s.reg x).getLsbD k != (s.reg y).getLsbD k))

/-- R126: the sum, and the carry in VF unless VF is the destination, which the sum then wins (D11). -/
def Obligations.AddRegistersResult : Prop :=
  ∀ (s : State) (x y : RegIdx), ∃ t, exec (.addReg x y) s = .next t ∧
    (t.reg x).toNat = ((s.reg x).toNat + (s.reg y).toNat) % 256 ∧
    (x ≠ VF → (t.reg VF).toNat = if (s.reg x).toNat + (s.reg y).toNat > 255 then 1 else 0) ∧
    t.pc = s.pc ∧ Frame { regs := [x, VF] } s t

/-- R127, R129: both differences, and the strict comparison in VF unless VF is the destination (D11). -/
def Obligations.SubtractResults : Prop :=
  ∀ (s : State) (x y : RegIdx),
    (∃ t, exec (.sub x y) s = .next t ∧
      (t.reg x).toNat = (256 + (s.reg x).toNat - (s.reg y).toNat) % 256 ∧
      (x ≠ VF → (t.reg VF).toNat = if (s.reg x).toNat > (s.reg y).toNat then 1 else 0) ∧
      t.pc = s.pc ∧ Frame { regs := [x, VF] } s t) ∧
    (∃ t, exec (.subn x y) s = .next t ∧
      (t.reg x).toNat = (256 + (s.reg y).toNat - (s.reg x).toNat) % 256 ∧
      (x ≠ VF → (t.reg VF).toNat = if (s.reg y).toNat > (s.reg x).toNat then 1 else 0) ∧
      t.pc = s.pc ∧ Frame { regs := [x, VF] } s t)

/-- R128, R130: both shifts, and the bit shifted out in VF unless VF is the destination (D11). -/
def Obligations.ShiftResults : Prop :=
  ∀ (s : State) (x : RegIdx),
    (∃ t, exec (.shr x) s = .next t ∧ (t.reg x).toNat = (s.reg x).toNat / 2 ∧
      (x ≠ VF → (t.reg VF).toNat = (s.reg x).toNat % 2) ∧ t.pc = s.pc ∧ Frame { regs := [x, VF] } s t) ∧
    (∃ t, exec (.shl x) s = .next t ∧ (t.reg x).toNat = 2 * (s.reg x).toNat % 256 ∧
      (x ≠ VF → (t.reg VF).toNat = (s.reg x).toNat / 128) ∧ t.pc = s.pc ∧ Frame { regs := [x, VF] } s t)

/-- R131: one draw, whatever it is (D18), ANDed with the immediate; the result's bits outside it are 0. That draws
are numbered is the model's choice (log 1). -/
def Obligations.RandomMaskedResult : Prop :=
  ∀ (s : State) (x : RegIdx) (kk : Byte), ∃ t, exec (.rnd x kk) s = .next t ∧
    (∀ k, (t.reg x).getLsbD k = (s.draw8.getLsbD k && kk.getLsbD k)) ∧ t.reg x &&& ~~~kk = 0 ∧
    (kk = 0 → t.reg x = 0) ∧ (kk = 0xFF → t.reg x = s.draw8) ∧
    t.drawIndex = s.drawIndex + 1 ∧ t.pc = s.pc ∧ Frame { regs := [x], draw := true } s t

/-! ### Index register and memory -/

/-- R150, R151, R152: the three writers of I; no flag, no fault (the 16-bit wrap is D6). -/
def Obligations.IndexResults : Prop :=
  ∀ (s : State) (x : RegIdx) (nnn : Addr12),
    (∃ t, exec (.ldI nnn) s = .next t ∧ t.I.toNat = nnn.toNat ∧ t.pc = s.pc ∧ Frame { I := true } s t) ∧
    (∃ t, exec (.addI x) s = .next t ∧ t.I.toNat = (s.I.toNat + (s.reg x).toNat) % 65536 ∧ t.pc = s.pc ∧
      Frame { I := true } s t) ∧
    (∃ t, exec (.ldF x) s = .next t ∧ t.I.toNat = 0x50 + 5 * (s.reg x).toNat ∧ t.pc = s.pc ∧ Frame { I := true } s t)

/-- R153: the three digits at the addresses of `span 3`, every other byte as before; or MEM_RANGE_WRITE with the
lowest address out of range (D4). The canonical memory as a premise: log 2. -/
def Obligations.StoreBcdResult : Prop :=
  ∀ (s : State) (x : RegIdx), s.M.wf = true →
    (s.I.toNat + 2 ≤ 0xFFF → ∃ t, exec (.ldB x) s = .next t ∧
      (t.M.read (s.addr 0)).toNat = (s.reg x).toNat / 100 ∧
      (t.M.read (s.addr 1)).toNat = (s.reg x).toNat / 10 % 10 ∧
      (t.M.read (s.addr 2)).toNat = (s.reg x).toNat % 10 ∧ t.pc = s.pc ∧ Frame { mem := s.span 3 } s t) ∧
    (0xFFF < s.I.toNat + 2 → exec (.ldB x) s = .fault (.raised .memRangeWrite (some (max s.I.toNat 0x1000))))

/-- R154: registers 0..x at the addresses of `span (x + 1)`, every other byte as before, I unchanged (D21); or
MEM_RANGE_WRITE (D4). The canonical memory as a premise: log 2. -/
def Obligations.StoreRegistersResult : Prop :=
  ∀ (s : State) (x : RegIdx), s.M.wf = true →
    (s.I.toNat + x.val ≤ 0xFFF → ∃ t, exec (.stRegs x) s = .next t ∧
      (∀ k : RegIdx, k ≤ x → t.M.read (s.addr k.val) = s.reg k) ∧ t.pc = s.pc ∧
      Frame { mem := s.span (x.val + 1) } s t) ∧
    (0xFFF < s.I.toNat + x.val →
      exec (.stRegs x) s = .fault (.raised .memRangeWrite (some (max s.I.toNat 0x1000))))

/-- R155: registers 0..x from ascending addresses, the others and I unchanged (D21); or MEM_RANGE_READ
(D4). -/
def Obligations.LoadRegistersResult : Prop :=
  ∀ (s : State) (x : RegIdx),
    (s.I.toNat + x.val ≤ 0xFFF → ∃ t, exec (.ldRegs x) s = .next t ∧
      (∀ k : RegIdx, k ≤ x → t.reg k = s.M.read (s.addr k.val)) ∧ t.pc = s.pc ∧
      Frame { regs := (List.finRange 16).take (x.val + 1) } s t) ∧
    (0xFFF < s.I.toNat + x.val →
      exec (.ldRegs x) s = .fault (.raised .memRangeRead (some (max s.I.toNat 0x1000))))

/-- What store-registers wrote, load-registers reads back, from any state that kept that memory and I. -/
def Obligations.LoadUndoesStore : Prop :=
  ∀ (s t u : State) (x : RegIdx), s.M.wf = true → exec (.stRegs x) s = .next t → u.M = t.M → u.I = s.I →
    ∃ v, exec (.ldRegs x) u = .next v ∧ ∀ r : RegIdx, v.reg r = if r ≤ x then s.reg r else u.reg r

/-- R65, R237, R53 (R65 and R53 as inferences the spec marks as its own): the next cycle fetches memory as this one
left it. After store-bcd and after store-registers, wherever their bytes lie, each byte of the next word is the one
stored there, if one was, and else as before; after any other instruction both are as before. And a fetch at the I of
a store-registers with x ≥ 1, from any state that kept its memory, reads V0, then V1. The canonical memory as a
premise: log 2. -/
def Obligations.NextFetchSeesTheStore : Prop :=
  (∀ s t : State, s.M.wf = true → step s = .next t → t.pc.toNat ≤ 0xFFE →
    match decode s.word with
    | .ldB x => fetch t = .ok (wordOfBytes
        (s.byteAfterStore [(s.reg x).toNat / 100, (s.reg x).toNat / 10 % 10, (s.reg x).toNat % 10] t.pc.toNat)
        (s.byteAfterStore [(s.reg x).toNat / 100, (s.reg x).toNat / 10 % 10, (s.reg x).toNat % 10] (t.pc.toNat + 1)))
    | .stRegs x => fetch t = .ok (wordOfBytes
        (s.byteAfterStore (((List.finRange 16).take (x.val + 1)).map fun k => (s.reg k).toNat) t.pc.toNat)
        (s.byteAfterStore (((List.finRange 16).take (x.val + 1)).map fun k => (s.reg k).toNat) (t.pc.toNat + 1)))
    | _ => fetch t = .ok (wordOfBytes (s.M.read t.pc.toNat) (s.M.read (t.pc.toNat + 1)))) ∧
  ∀ (s t u : State) (x : RegIdx), s.M.wf = true → exec (.stRegs x) s = .next t → 1 ≤ x.val → u.M = t.M → u.pc = s.I →
    fetch u = .ok (wordOfBytes (s.reg 0) (s.reg 1))

/-- R152 with FONT as a premise (R36, D3): where the font region still holds FONT, load-font-address of a digit
points at its five bytes. -/
def Obligations.FontAddressPointsAtTheGlyph : Prop :=
  ∀ (s : State) (x : RegIdx), (∀ k, k < 80 → s.M.read (0x50 + k) = Config.font.getD k 0) → (s.reg x).toNat ≤ 15 →
    ∃ t, exec (.ldF x) s = .next t ∧
      ∀ r, r < 5 → t.M.read (t.addr r) = Config.font.getD (5 * (s.reg x).toNat + r) 0

/-- The canonical form (log 2): two memories in it that read alike are equal. -/
def Obligations.CanonicalMemoryIsUnique : Prop :=
  ∀ m m' : Memory, m.wf = true → m'.wf = true → (∀ a, m.read a = m'.read a) → m = m'

/-! ### Display -/

/-- R170: every pixel off, VF and everything else unchanged. -/
def Obligations.ClearDisplayResult : Prop :=
  ∀ s : State, ∃ t, exec .cls s = .next t ∧ (∀ (row : Fin 32) (col : Fin 64), t.D[row][col] = false) ∧
    t.pc = s.pc ∧ Frame { D := true } s t

/-- R171, R173 with SPRITE_EDGE = Clip as a premise (D9): pixel (row, col) is toggled exactly if a sprite bit that
is 1 lies on it, counted from the wrapped origin with no wrap of the pixels; VF is 1 exactly if such a pixel was on;
the origin is taken before VF is written; n = 0 reads nothing; or MEM_RANGE_READ (D4). -/
def Obligations.DrawSpriteResult : Prop :=
  ∀ (s : State) (x y : RegIdx) (n : Fin 16), Config.spriteEdge = .clip →
    (n.val = 0 ∨ s.I.toNat + n.val - 1 ≤ 0xFFF → ∃ t, exec (.drw x y n) s = .next t ∧
      (∀ (row : Fin 32) (col : Fin 64), t.D[row][col] = (s.D[row][col] !=
        (decide ((s.reg y).toNat % 32 ≤ row.val ∧ row.val < (s.reg y).toNat % 32 + n.val ∧
          (s.reg x).toNat % 64 ≤ col.val ∧ col.val < (s.reg x).toNat % 64 + 8) &&
        (s.M.read (s.addr (row.val - (s.reg y).toNat % 32))).getLsbD (7 - (col.val - (s.reg x).toNat % 64))))) ∧
      ((∃ (row : Fin 32) (col : Fin 64), s.D[row][col] = true ∧ t.D[row][col] = false) → t.reg VF = 1) ∧
      ((∀ (row : Fin 32) (col : Fin 64), s.D[row][col] = true → t.D[row][col] = true) → t.reg VF = 0) ∧
      t.pc = s.pc ∧ Frame { regs := [VF], D := true } s t) ∧
    (0 < n.val → 0xFFF < s.I.toNat + n.val - 1 →
      exec (.drw x y n) s = .fault (.raised .memRangeRead (some (max s.I.toNat 0x1000))))

/-- The example of R171. Under either edge mode (R172), a sprite drawn again at the same place restores the display;
on a blank display the first draw has no hit, and the second has one exactly if the first drew a pixel. So does the
instruction, under the machine's mode, when its origin registers are not VF, which it writes. -/
def Obligations.DrawingTwiceRestoresTheDisplay : Prop :=
  (∀ (edge : Config.SpriteEdge) (d : Display) (xo yo : Nat) (sprite : List Byte), sprite.length ≤ 15 →
    (drawSprite edge (drawSprite edge d xo yo sprite).display xo yo sprite).display = d ∧
    ((∀ (row : Fin 32) (col : Fin 64), d[row][col] = false) →
      (drawSprite edge d xo yo sprite).hit = false ∧
      ((drawSprite edge (drawSprite edge d xo yo sprite).display xo yo sprite).hit = true ↔
        (drawSprite edge d xo yo sprite).display ≠ d))) ∧
  ∀ (s t u : State) (x y : RegIdx) (n : Fin 16), x ≠ VF → y ≠ VF → exec (.drw x y n) s = .next t →
    exec (.drw x y n) t = .next u →
    u.D = s.D ∧ ((∀ (row : Fin 32) (col : Fin 64), s.D[row][col] = false) →
      t.reg VF = 0 ∧ (t.D ≠ s.D → u.reg VF = 1) ∧ (t.D = s.D → u.reg VF = 0))

/-- R172: `Place` under both edge modes, as (row, column), and the mode the machine takes (D9; log 5). -/
def Obligations.PlaceOfAPixel : Prop :=
  spriteEdge = .clip ∧ ∀ (px py : Nat) (row : Fin 32) (col : Fin 64),
    (place .clip px py = some (row, col) ↔ px = col.val ∧ py = row.val) ∧
    (place .wrap px py = some (row, col) ↔ px % 64 = col.val ∧ py % 32 = row.val) ∧
    (place .clip px py = none ↔ 64 ≤ px ∨ 32 ≤ py)

/-! ### Keys and timers -/

/-- R180, R181: the two key skips on the key that V[x] names, or KEY_RANGE with V[x] (D10). -/
def Obligations.KeySkipResults : Prop :=
  ∀ (s : State) (x : RegIdx),
    (∀ k : KeyIdx, k.val = (s.reg x).toNat →
      (∃ t, exec (.skp x) s = .next t ∧ (s.key[k] = true → t.pc = s.pc + 2) ∧ (s.key[k] = false → t.pc = s.pc) ∧
        Frame {} s t) ∧
      (∃ t, exec (.sknp x) s = .next t ∧ (s.key[k] = false → t.pc = s.pc + 2) ∧ (s.key[k] = true → t.pc = s.pc) ∧
        Frame {} s t)) ∧
    (15 < (s.reg x).toNat →
      exec (.skp x) s = .fault (.raised .keyRange (some (s.reg x).toNat)) ∧
      exec (.sknp x) s = .fault (.raised .keyRange (some (s.reg x).toNat)))

/-- R185: with no key pressed the pc steps back by 2 and nothing else changes; else V[x] gets the highest pressed
key. -/
def Obligations.WaitForKeyResult : Prop :=
  ∀ (s : State) (x : RegIdx),
    ((∀ k : KeyIdx, s.key[k] = false) → ∃ t, exec (.ldVxK x) s = .next t ∧ t.pc = s.pc - 2 ∧ Frame {} s t) ∧
    (∀ k : KeyIdx, s.key[k] = true → (∀ j : KeyIdx, s.key[j] = true → j ≤ k) →
      ∃ t, exec (.ldVxK x) s = .next t ∧ (t.reg x).toNat = k.val ∧ t.pc = s.pc ∧ Frame { regs := [x] } s t)

/-- R182, R183, R184: the three timer moves (the direction of the first two is D28), before the tick of the cycle. -/
def Obligations.TimerMoveResults : Prop :=
  ∀ (s : State) (x : RegIdx),
    (∃ t, exec (.ldVxDt x) s = .next t ∧ t.reg x = s.DT ∧ t.pc = s.pc ∧ Frame { regs := [x] } s t) ∧
    (∃ t, exec (.ldDtVx x) s = .next t ∧ t.DT = s.reg x ∧ t.pc = s.pc ∧ Frame { DT := true } s t) ∧
    (∃ t, exec (.ldStVx x) s = .next t ∧ t.ST = s.reg x ∧ t.pc = s.pc ∧ Frame { ST := true } s t)

/-- R79: the no-op handler through each of its four tables changes nothing, and a cycle that fetches an unmapped word
advances the pc by 2, ticks the timers and changes nothing else. Which keys are unmapped is R75 to R78, from general
knowledge (D1; log 13); that table F maps none above 0x65 is D27 (log 6). -/
def Obligations.NoOpIsInert : Prop :=
  (∀ (s : State) (rest : Addr12), ∀ i ∈ [Instr.nop0 rest, .nop8 rest, .nopE rest, .nopF rest],
    ∃ t, exec i s = .next t ∧ t.pc = s.pc ∧ Frame {} s t) ∧
  ∀ s : State, s.fault = none → s.pc.toNat ≤ 0xFFE →
    (cat s.word = 0x0 ∧ sub4 s.word ∉ [0x0#4, 0xE#4] ∨
      cat s.word = 0x8 ∧ sub4 s.word ∉ [0x0#4, 0x1#4, 0x2#4, 0x3#4, 0x4#4, 0x5#4, 0x6#4, 0x7#4, 0xE#4] ∨
      cat s.word = 0xE ∧ sub4 s.word ∉ [0xE#4, 0x1#4] ∨
      cat s.word = 0xF ∧ sub8 s.word ∉ [0x07#8, 0x0A#8, 0x15#8, 0x18#8, 0x1E#8, 0x29#8, 0x33#8, 0x55#8, 0x65#8]) →
    ∃ t, step s = .next t ∧ t.pc = s.pc + 2 ∧ t.DT.toNat = s.DT.toNat - 1 ∧ t.ST.toNat = s.ST.toNat - 1 ∧
      Frame { DT := true, ST := true } s t

/-! ### What a program cannot see -/

/-- R28, R38: ST is read by no instruction: two states that differ only in ST step to states that differ only in
ST, or stop alike. -/
def Obligations.SoundTimerIsNeverRead : Prop :=
  ∀ (s : State) (b : Byte),
    (∀ t, step s = .next t → ∃ c, step { s with ST := b } = .next { t with ST := c }) ∧
    (∀ f, step s = .fault f → step { s with ST := b } = .fault f)

/-- R30 (D19): only the two key skips and wait-for-key read the key state: any other instruction steps alike
whatever keys the host has set, and keeps them. -/
def Obligations.OnlyKeyInstructionsReadTheKeys : Prop :=
  ∀ (s : State) (ks : Keys),
    (∀ x, decode s.word ≠ .skp x ∧ decode s.word ≠ .sknp x ∧ decode s.word ≠ .ldVxK x) →
    (∀ t, step s = .next t → step { s with key := ks } = .next { t with key := ks }) ∧
    (∀ f, step s = .fault f → step { s with key := ks } = .fault f)

/-- R27 (D26), R38: what the slots at and above SP hold is never observable: over any run, whatever keys the host
sets, two states that differ only there end in states that differ only there, or stop alike. -/
def Obligations.SlotsAboveSPAreNeverObserved : Prop :=
  ∀ (keys : List Keys) (s s' : State), s' = { s with stack := s'.stack } →
    (∀ j : Fin 16, j.val < s.SP.val → s'.stack[j] = s.stack[j]) →
    (∀ t, runKeys keys s = .next t → ∃ t', runKeys keys s' = .next t' ∧ t' = { t with stack := t'.stack } ∧
      ∀ j : Fin 16, j.val < t.SP.val → t'.stack[j] = t.stack[j]) ∧
    (∀ f, runKeys keys s = .fault f → runKeys keys s' = .fault f)
end

