-- ==== Sys2Proof/Laws/Decode.lean ====
section
/-! SUPPORT. The fields of a word that the encoder builds, the two bytes of a word, and the decoder's table by
category. -/

namespace Sys2Proof

/-! ### Indexes and their fields -/

@[simp] theorem fieldIdx_idxField (k : Fin 16) : fieldIdx (idxField k) = k := by
  apply Fin.ext
  simp only [fieldIdx, idxField, BitVec.toNat_ofNat]
  omega

@[simp] theorem idxField_fieldIdx (b : BitVec 4) : idxField (fieldIdx b) = b := by
  apply BitVec.eq_of_toNat_eq
  simp [fieldIdx, idxField]

/-! ### Fields of concatenations -/

/-- The low part of a concatenation, read by a field that lies in it. -/
theorem extract_low {v w n : Nat} {hi : BitVec v} {lo : BitVec w} {start len : Nat} (h : start + len ≤ w)
    (x : BitVec n) (hx : n = v + w) (e : HEq x (hi ++ lo)) :
    x.extractLsb' start len = lo.extractLsb' start len := by
  subst hx
  rw [eq_of_heq e]
  exact BitVec.extractLsb'_append_eq_of_add_le h

/-- The high part of a concatenation, read by a field that lies in it. -/
theorem extract_high {v w n : Nat} {hi : BitVec v} {lo : BitVec w} {start len : Nat} (h : w ≤ start)
    (x : BitVec n) (hx : n = v + w) (e : HEq x (hi ++ lo)) :
    x.extractLsb' start len = hi.extractLsb' (start - w) len := by
  subst hx
  rw [eq_of_heq e]
  exact BitVec.extractLsb'_append_eq_of_le h

variable (c : BitVec 4) (nnn : Addr12) (x y : RegIdx) (kk : Byte) (low ign : BitVec 4)

/-- A field below the category, of a word made of a category and twelve bits. -/
theorem extract_wordNnn {start len : Nat} (h : start + len ≤ 12) :
    (wordNnn c nnn).extractLsb' start len = nnn.extractLsb' start len :=
  extract_low h (wordNnn c nnn) rfl HEq.rfl

@[simp] theorem cat_wordNnn : cat (wordNnn c nnn) = c :=
  (extract_high (Nat.le_refl 12) (wordNnn c nnn) rfl HEq.rfl).trans BitVec.extractLsb'_eq_self

@[simp] theorem nnnField_wordNnn : nnnField (wordNnn c nnn) = nnn :=
  (extract_wordNnn c nnn (by omega)).trans BitVec.extractLsb'_eq_self

@[simp] theorem sub4_wordNnn : sub4 (wordNnn c nnn) = lowNibble nnn := extract_wordNnn c nnn (by omega)

@[simp] theorem sub8_wordNnn : sub8 (wordNnn c nnn) = lowByte nnn := extract_wordNnn c nnn (by omega)

/-- `wordXkk` and the forms with four-bit fields are `wordNnn` of their twelve bits. -/
theorem wordXkk_eq : wordXkk c x kk = wordNnn c (idxField x ++ kk : BitVec 12) := rfl

theorem wordXyn_eq : wordXyn c x y low = wordXkk c x (idxField y ++ low : BitVec 8) := rfl

theorem wordXin_eq : wordXin c x ign low = wordXkk c x (ign ++ low : BitVec 8) := rfl

@[simp] theorem cat_wordXkk : cat (wordXkk c x kk) = c := cat_wordNnn c _

@[simp] theorem xField_wordXkk : xField (wordXkk c x kk) = x := by
  have h : (wordXkk c x kk).extractLsb' 8 4 = idxField x :=
    (extract_wordNnn c _ (by omega)).trans
      ((extract_high (Nat.le_refl 8) (idxField x ++ kk : BitVec 12) rfl HEq.rfl).trans BitVec.extractLsb'_eq_self)
  rw [xField, h, fieldIdx_idxField]

/-- A field of the low byte. -/
theorem extract_wordXkk {start len : Nat} (h : start + len ≤ 8) :
    (wordXkk c x kk).extractLsb' start len = kk.extractLsb' start len :=
  (extract_wordNnn c _ (by omega)).trans (extract_low h (idxField x ++ kk : BitVec 12) rfl HEq.rfl)

@[simp] theorem kkField_wordXkk : kkField (wordXkk c x kk) = kk :=
  (extract_wordXkk c x kk (by omega)).trans BitVec.extractLsb'_eq_self

@[simp] theorem sub8_wordXkk : sub8 (wordXkk c x kk) = kk := kkField_wordXkk c x kk

@[simp] theorem cat_wordXyn : cat (wordXyn c x y low) = c := cat_wordNnn c _

@[simp] theorem xField_wordXyn : xField (wordXyn c x y low) = x := xField_wordXkk c x _

@[simp] theorem yField_wordXyn : yField (wordXyn c x y low) = y := by
  have h : (wordXyn c x y low).extractLsb' 4 4 = idxField y :=
    (extract_wordXkk c x _ (by omega)).trans
      ((extract_high (Nat.le_refl 4) (idxField y ++ low : BitVec 8) rfl HEq.rfl).trans BitVec.extractLsb'_eq_self)
  rw [yField, h, fieldIdx_idxField]

@[simp] theorem sub4_wordXyn : sub4 (wordXyn c x y low) = low :=
  (extract_wordXkk c x _ (by omega)).trans
    ((extract_low (by omega) (idxField y ++ low : BitVec 8) rfl HEq.rfl).trans BitVec.extractLsb'_eq_self)

@[simp] theorem nField_wordXyn (n : Fin 16) : nField (wordXyn c x y (idxField n)) = n := by
  have h : (wordXyn c x y (idxField n)).extractLsb' 0 4 = idxField n := sub4_wordXyn c x y (idxField n)
  rw [nField, h, fieldIdx_idxField]

@[simp] theorem cat_wordXin : cat (wordXin c x ign low) = c := cat_wordNnn c _

@[simp] theorem xField_wordXin : xField (wordXin c x ign low) = x := xField_wordXkk c x _

@[simp] theorem sub4_wordXin : sub4 (wordXin c x ign low) = low :=
  (extract_wordXkk c x _ (by omega)).trans
    ((extract_low (by omega) (ign ++ low : BitVec 8) rfl HEq.rfl).trans BitVec.extractLsb'_eq_self)

/-! ### Masks of the opcode table -/

theorem wordNnn_and (c' : BitVec 4) (nnn' : Addr12) :
    wordNnn c nnn &&& wordNnn c' nnn' = wordNnn (c &&& c') (nnn &&& nnn') := BitVec.and_append

/-- The mask of the rows that fix the category only. -/
theorem wordNnn_and_cat : wordNnn c nnn &&& 0xF000#16 = wordNnn c 0 := by
  have h := wordNnn_and c nnn 0xF#4 0#12
  rw [show (c &&& 0xF#4) = c from BitVec.and_allOnes, BitVec.and_zero] at h
  exact h

/-- The mask of the rows of tables 0, 8 and E, the nibble above the key left free. -/
theorem wordXin_and_key : wordXin c x ign low &&& 0xF00F#16 = wordNnn c (0#8 ++ low : BitVec 12) := by
  have h4 : (low &&& 0xF#4) = low := BitVec.and_allOnes
  have h8 : ((ign ++ low : BitVec 8) &&& (0#4 ++ 0xF#4 : BitVec 8)) = (0#4 ++ low : BitVec 8) := by
    have h := BitVec.and_append (x₁ := ign) (x₂ := 0#4) (y₁ := low) (y₂ := 0xF#4)
    rw [h4, BitVec.and_zero] at h
    exact h
  have h12 := BitVec.and_append (x₁ := idxField x) (x₂ := 0#4) (y₁ := (ign ++ low : BitVec 8)) (y₂ := (0#4 ++ 0xF#4 : BitVec 8))
  rw [h8, BitVec.and_zero] at h12
  have h := wordNnn_and c (idxField x ++ (ign ++ low : BitVec 8) : BitVec 12) 0xF#4 (0#4 ++ (0#4 ++ 0xF#4 : BitVec 8) : BitVec 12)
  rw [show (c &&& 0xF#4) = c from BitVec.and_allOnes, h12] at h
  refine Eq.trans h (congrArg (wordNnn c) ?_)
  exact (BitVec.append_assoc (x₁ := 0#4) (x₂ := 0#4) (x₃ := low)).symm

/-- `wordXyn` is `wordXin` with the field of `y` in the free nibble. -/
theorem wordXyn_and_key : wordXyn c x y low &&& 0xF00F#16 = wordNnn c (0#8 ++ low : BitVec 12) :=
  wordXin_and_key c x low (idxField y)

/-- The mask of the rows of table F. -/
theorem wordXkk_and_key : wordXkk c x kk &&& 0xF0FF#16 = wordNnn c (0#4 ++ kk : BitVec 12) := by
  have h12 := BitVec.and_append (x₁ := idxField x) (x₂ := 0#4) (y₁ := kk) (y₂ := 0xFF#8)
  rw [show (kk &&& 0xFF#8) = kk from BitVec.and_allOnes, BitVec.and_zero] at h12
  have h := wordNnn_and c (idxField x ++ kk : BitVec 12) 0xF#4 (0#4 ++ 0xFF#8 : BitVec 12)
  rw [show (c &&& 0xF#4) = c from BitVec.and_allOnes, h12] at h
  exact h

/-- Bits masked within a word's twelve bits below the category. -/
theorem wordXkk_and_low (m : BitVec 8) :
    wordXkk c x kk &&& (0xF#4 ++ (0xF#4 ++ m : BitVec 12) : BitVec 16) = wordXkk c x (kk &&& m) := by
  have h12 := BitVec.and_append (x₁ := idxField x) (x₂ := 0xF#4) (y₁ := kk) (y₂ := m)
  rw [show (idxField x &&& 0xF#4) = idxField x from BitVec.and_allOnes] at h12
  have h := wordNnn_and c (idxField x ++ kk : BitVec 12) 0xF#4 (0xF#4 ++ m : BitVec 12)
  rw [show (c &&& 0xF#4) = c from BitVec.and_allOnes, h12] at h
  exact h

/-- The nibble that SHR, SHL and the rows of table E ignore. -/
theorem wordXin_and_named : wordXin c x ign low &&& 0xFF0F#16 = wordXin c x 0 low := by
  have h8 : ((ign ++ low : BitVec 8) &&& (0#4 ++ 0xF#4 : BitVec 8)) = (0#4 ++ low : BitVec 8) := by
    have h := BitVec.and_append (x₁ := ign) (x₂ := 0#4) (y₁ := low) (y₂ := 0xF#4)
    rw [show (low &&& 0xF#4) = low from BitVec.and_allOnes, BitVec.and_zero] at h
    exact h
  exact (wordXkk_and_low c x (ign ++ low : BitVec 8) (0#4 ++ 0xF#4 : BitVec 8)).trans (congrArg (wordXkk c x) h8)

/-- The low nibble that 5xyN and 9xyN ignore. -/
theorem wordXyn_and_named : wordXyn c x y low &&& 0xFFF0#16 = wordXyn c x y 0 := by
  have h8 : ((idxField y ++ low : BitVec 8) &&& (0xF#4 ++ 0#4 : BitVec 8)) = (idxField y ++ 0#4 : BitVec 8) := by
    have h := BitVec.and_append (x₁ := idxField y) (x₂ := 0xF#4) (y₁ := low) (y₂ := 0#4)
    rw [show (idxField y &&& 0xF#4) = idxField y from BitVec.and_allOnes, BitVec.and_zero] at h
    exact h
  exact (wordXkk_and_low c x (idxField y ++ low : BitVec 8) (0xF#4 ++ 0#4 : BitVec 8)).trans
    (congrArg (wordXkk c x) h8)

/-! ### A word from its fields -/

theorem lowNibble_nnnField (w : Word) : lowNibble (nnnField w) = sub4 w := by
  apply BitVec.eq_of_getElem_eq
  intro i hi
  simp [lowNibble, nnnField, sub4]

theorem lowByte_nnnField (w : Word) : lowByte (nnnField w) = sub8 w := by
  apply BitVec.eq_of_getElem_eq
  intro i hi
  simp [lowByte, nnnField, sub8]

@[simp] theorem wordNnn_fields (w : Word) : wordNnn (cat w) (nnnField w) = w := by
  apply BitVec.eq_of_getElem_eq
  intro i hi
  show (cat w ++ nnnField w : BitVec (4 + 12))[i] = w[i]
  rw [BitVec.getElem_append]
  split
  · simp [nnnField, hi]
  · next h =>
    have e : 12 + (i - 12) = i := by omega
    simp [cat, e, hi]

@[simp] theorem wordXkk_fields (w : Word) : wordXkk (cat w) (xField w) (kkField w) = w := by
  have h : (idxField (xField w) ++ kkField w : BitVec 12) = nnnField w := by
    apply BitVec.eq_of_getElem_eq
    intro i hi
    show (idxField (xField w) ++ kkField w : BitVec (4 + 8))[i] = (nnnField w)[i]
    rw [BitVec.getElem_append]
    split
    · simp [nnnField, kkField]
    · next h =>
      have e : 8 + (i - 8) = i := by omega
      simp [xField, nnnField, e]
  exact (congrArg (wordNnn (cat w)) h).trans (wordNnn_fields w)

@[simp] theorem wordXyn_fields (w : Word) : wordXyn (cat w) (xField w) (yField w) (sub4 w) = w := by
  have h : (idxField (yField w) ++ sub4 w : BitVec 8) = kkField w := by
    apply BitVec.eq_of_getElem_eq
    intro i hi
    show (idxField (yField w) ++ sub4 w : BitVec (4 + 4))[i] = (kkField w)[i]
    rw [BitVec.getElem_append]
    split
    · simp [sub4, kkField]
    · next h =>
      have e : 4 + (i - 4) = i := by omega
      simp [yField, kkField, e]
  exact (congrArg (wordXkk (cat w) (xField w)) h).trans (wordXkk_fields w)

/-! ### A word and its bytes (R52) -/

@[simp] theorem wordOfBytes_hi_lo (w : Word) : wordOfBytes (hiByte w) (loByte w) = w := by
  apply BitVec.eq_of_getElem_eq
  intro i hi
  show (hiByte w ++ loByte w : BitVec (8 + 8))[i] = w[i]
  rw [BitVec.getElem_append]
  split
  · simp [loByte, hi]
  · next h =>
    have h8 : 8 + (i - 8) = i := by omega
    simp [hiByte, h8, hi]

@[simp] theorem hiByte_wordOfBytes (hi lo : Byte) : hiByte (wordOfBytes hi lo) = hi :=
  (extract_high (Nat.le_refl 8) (wordOfBytes hi lo) rfl HEq.rfl).trans BitVec.extractLsb'_eq_self

@[simp] theorem loByte_wordOfBytes (hi lo : Byte) : loByte (wordOfBytes hi lo) = lo :=
  (extract_low (by omega) (wordOfBytes hi lo) rfl HEq.rfl).trans BitVec.extractLsb'_eq_self

theorem wordOfBytes_toNat (hi lo : Byte) : (wordOfBytes hi lo).toNat = hi.toNat * 256 + lo.toNat := by
  show (hi ++ lo : BitVec (8 + 8)).toNat = _
  rw [BitVec.toNat_append, Nat.shiftLeft_eq, Nat.mul_comm, ← Nat.two_pow_add_eq_or_of_lt lo.isLt]

end Sys2Proof
end

