-- ==== Sys2Proof/Laws/Memory.lean ====
section
/-! SUPPORT. What the memory operations do, and that each keeps the canonical form. -/

namespace Sys2Proof.Machine

variable {m : Memory} {lo a a' : Nat} {b : Byte}

theorem Memory.wfFrom_cons_iff {k : Nat} {c : Byte} :
    Memory.wfFrom lo ((k, c) :: m) = true ↔
      lo ≤ k ∧ k < Config.memSize ∧ c ≠ blank k ∧ Memory.wfFrom (k + 1) m = true := by
  simp [Memory.wfFrom, and_assoc]

@[simp] theorem Memory.wfFrom_nil : Memory.wfFrom lo [] = true := rfl

/-- A list from `lo` on is a list from anywhere below. -/
theorem Memory.wfFrom_mono (h : Memory.wfFrom lo m = true) (hle : a ≤ lo) : Memory.wfFrom a m = true := by
  cases m with
  | nil => rfl
  | cons e rest =>
    rw [Memory.wfFrom_cons_iff] at h ⊢
    exact ⟨by omega, h.2⟩

/-- An address below the list is not listed. -/
theorem Memory.read_below (h : Memory.wfFrom lo m = true) (hlt : a < lo) : m.read a = blank a := by
  induction m generalizing lo with
  | nil => rfl
  | cons e rest ih =>
    rw [Memory.wfFrom_cons_iff] at h
    have hne : e.1 ≠ a := by omega
    simp only [Memory.read, if_neg hne]
    exact ih h.2.2.2 (by omega)

theorem Memory.read_cons (h : m.read a = blank a) : (Memory.cons a b m).read a' = if a' = a then b else m.read a' := by
  unfold Memory.cons
  by_cases hb : b = blank a
  · by_cases e : a' = a
    · subst e; simp [hb, h]
    · simp [hb, e]
  · by_cases e : a' = a
    · subst e; simp [hb, Memory.read]
    · simp [hb, Memory.read, e, Ne.symm e]

/-- Read after write: the byte written, and every other byte as before. -/
theorem Memory.read_write_from (h : Memory.wfFrom lo m = true) :
    (m.write a b).read a' = if a' = a then b else m.read a' := by
  induction m generalizing lo with
  | nil => exact Memory.read_cons rfl
  | cons e rest ih =>
    have h' := Memory.wfFrom_cons_iff.mp h
    simp only [Memory.write]
    split
    · next hlt => exact Memory.read_cons (Memory.read_below (Memory.wfFrom_mono h le_rfl |> fun _ =>
        Memory.wfFrom_cons_iff.mpr ⟨le_rfl, h'.2⟩) hlt)
    · split
      · next heq =>
        subst heq
        rw [Memory.read_cons (Memory.read_below h'.2.2.2 (by omega))]
        by_cases e' : a' = e.1
        · simp [e']
        · simp [e', Memory.read, Ne.symm e']
      · next hne =>
        simp only [Memory.read, ih h'.2.2.2]
        by_cases e1 : e.1 = a'
        · simp [e1]; intro e2; omega
        · simp [e1]

/-- A write keeps the canonical form. -/
theorem Memory.wfFrom_write (h : Memory.wfFrom lo m = true) (hlo : lo ≤ a) (ha : a < Config.memSize) :
    Memory.wfFrom lo (m.write a b) = true := by
  induction m generalizing lo with
  | nil =>
    simp only [Memory.write, Memory.cons]
    split
    · rfl
    · next hb => exact Memory.wfFrom_cons_iff.mpr ⟨hlo, ha, hb, rfl⟩
  | cons e rest ih =>
    have h' := Memory.wfFrom_cons_iff.mp h
    simp only [Memory.write, Memory.cons]
    split
    · next hlt =>
      split
      · exact h
      · next hb =>
        exact Memory.wfFrom_cons_iff.mpr ⟨hlo, ha, hb, Memory.wfFrom_cons_iff.mpr ⟨by omega, h'.2⟩⟩
    · split
      · next heq =>
        subst heq
        split
        · exact Memory.wfFrom_mono h'.2.2.2 (by omega)
        · next hb => exact Memory.wfFrom_cons_iff.mpr ⟨hlo, ha, hb, h'.2.2.2⟩
      · next hne =>
        exact Memory.wfFrom_cons_iff.mpr ⟨h'.1, h'.2.1, h'.2.2.1, ih h'.2.2.2 (by omega)⟩

theorem Memory.read_write (h : m.wf = true) : (m.write a b).read a' = if a' = a then b else m.read a' :=
  Memory.read_write_from h

theorem Memory.wf_write (h : m.wf = true) (ha : a < Config.memSize) : (m.write a b).wf = true :=
  Memory.wfFrom_write h (Nat.zero_le a) ha

@[simp] theorem Memory.wf_nil : Memory.wf [] = true := rfl

/-- Consecutive writes keep the canonical form. -/
theorem Memory.wf_writeBytes {bs : List Byte} (h : m.wf = true) (ha : a + bs.length ≤ Config.memSize) :
    (m.writeBytes a bs).wf = true := by
  induction bs generalizing m a with
  | nil => exact h
  | cons b bs ih =>
    simp only [List.length_cons] at ha
    exact ih (Memory.wf_write h (by omega)) (by omega)

/-- What consecutive writes leave: the bytes at ascending addresses from `a`, every other byte as before. -/
theorem Memory.read_writeBytes {bs : List Byte} (h : m.wf = true) (ha : a + bs.length ≤ Config.memSize) :
    (m.writeBytes a bs).read a' = if a ≤ a' then (bs[a' - a]?).getD (m.read a') else m.read a' := by
  induction bs generalizing m a with
  | nil => simp [Memory.writeBytes]
  | cons b bs ih =>
    simp only [List.length_cons] at ha
    simp only [Memory.writeBytes]
    rw [ih (Memory.wf_write h (by omega)) (by omega), Memory.read_write h]
    rcases Nat.lt_trichotomy a' a with hlt | heq | hgt
    · have h1 : ¬ a + 1 ≤ a' := by omega
      have h2 : ¬ a ≤ a' := by omega
      have h3 : a' ≠ a := by omega
      simp [h1, h2, h3]
    · subst heq; simp
    · have h1 : a + 1 ≤ a' := by omega
      have h2 : a ≤ a' := by omega
      have h3 : a' ≠ a := by omega
      obtain ⟨d, rfl⟩ : ∃ d, a' = a + 1 + d := ⟨a' - (a + 1), by omega⟩
      have h4 : a + 1 + d - a = d + 1 := by omega
      simp [h2, h3, h4]

/-- A word placed for a fetch keeps the canonical form. -/
theorem Memory.wf_placeWord {w : Word} (h : m.wf = true) : (m.placeWord a w).wf = true := by
  unfold Memory.placeWord
  split
  · exact Memory.wf_write (Memory.wf_write h (by simp [Config.memSize]; omega)) (by simp [Config.memSize]; omega)
  · exact h

/-- The two bytes of a placed word. -/
theorem Memory.read_placeWord {w : Word} (h : m.wf = true) (ha : a ≤ 0xFFE) :
    (m.placeWord a w).read a = hiByte w ∧ (m.placeWord a w).read (a + 1) = loByte w := by
  have h1 : (m.write a (hiByte w)).wf = true := Memory.wf_write h (by simp [Config.memSize]; omega)
  simp [Memory.placeWord, ha, Memory.read_write h1, Memory.read_write h]

end Sys2Proof.Machine
end

