-- ==== Sys2Proof/Laws/State.lean ====
section
/-! SUPPORT. One lemma for each field after each update of the state, so that no proof unfolds a record update. -/

namespace Sys2Proof.Machine

variable (s : State)

/-! ### setReg -/

@[simp] theorem State.setReg_M (x : RegIdx) (b : Byte) : (s.setReg x b).M = s.M := rfl
@[simp] theorem State.setReg_V (x : RegIdx) (b : Byte) : (s.setReg x b).V = s.V.set x b := rfl
@[simp] theorem State.setReg_I (x : RegIdx) (b : Byte) : (s.setReg x b).I = s.I := rfl
@[simp] theorem State.setReg_pc (x : RegIdx) (b : Byte) : (s.setReg x b).pc = s.pc := rfl
@[simp] theorem State.setReg_SP (x : RegIdx) (b : Byte) : (s.setReg x b).SP = s.SP := rfl
@[simp] theorem State.setReg_stack (x : RegIdx) (b : Byte) : (s.setReg x b).stack = s.stack := rfl
@[simp] theorem State.setReg_DT (x : RegIdx) (b : Byte) : (s.setReg x b).DT = s.DT := rfl
@[simp] theorem State.setReg_ST (x : RegIdx) (b : Byte) : (s.setReg x b).ST = s.ST := rfl
@[simp] theorem State.setReg_D (x : RegIdx) (b : Byte) : (s.setReg x b).D = s.D := rfl
@[simp] theorem State.setReg_key (x : RegIdx) (b : Byte) : (s.setReg x b).key = s.key := rfl
@[simp] theorem State.setReg_fault (x : RegIdx) (b : Byte) : (s.setReg x b).fault = s.fault := rfl
@[simp] theorem State.setReg_drawIndex (x : RegIdx) (b : Byte) : (s.setReg x b).drawIndex = s.drawIndex := rfl
@[simp] theorem State.setReg_addr (x : RegIdx) (b : Byte) (k : Nat) : (s.setReg x b).addr k = s.addr k := rfl

/-! ### setFlag -/

@[simp] theorem State.setFlag_M (b : Byte) : (s.setFlag b).M = s.M := rfl
@[simp] theorem State.setFlag_V (b : Byte) : (s.setFlag b).V = s.V.set VF b := rfl
@[simp] theorem State.setFlag_I (b : Byte) : (s.setFlag b).I = s.I := rfl
@[simp] theorem State.setFlag_pc (b : Byte) : (s.setFlag b).pc = s.pc := rfl
@[simp] theorem State.setFlag_SP (b : Byte) : (s.setFlag b).SP = s.SP := rfl
@[simp] theorem State.setFlag_stack (b : Byte) : (s.setFlag b).stack = s.stack := rfl
@[simp] theorem State.setFlag_DT (b : Byte) : (s.setFlag b).DT = s.DT := rfl
@[simp] theorem State.setFlag_ST (b : Byte) : (s.setFlag b).ST = s.ST := rfl
@[simp] theorem State.setFlag_D (b : Byte) : (s.setFlag b).D = s.D := rfl
@[simp] theorem State.setFlag_key (b : Byte) : (s.setFlag b).key = s.key := rfl
@[simp] theorem State.setFlag_fault (b : Byte) : (s.setFlag b).fault = s.fault := rfl
@[simp] theorem State.setFlag_drawIndex (b : Byte) : (s.setFlag b).drawIndex = s.drawIndex := rfl
@[simp] theorem State.setFlag_addr (b : Byte) (k : Nat) : (s.setFlag b).addr k = s.addr k := rfl

/-! ### setI -/

@[simp] theorem State.setI_M (a : Word) : (s.setI a).M = s.M := rfl
@[simp] theorem State.setI_V (a : Word) : (s.setI a).V = s.V := rfl
@[simp] theorem State.setI_I (a : Word) : (s.setI a).I = a := rfl
@[simp] theorem State.setI_pc (a : Word) : (s.setI a).pc = s.pc := rfl
@[simp] theorem State.setI_SP (a : Word) : (s.setI a).SP = s.SP := rfl
@[simp] theorem State.setI_stack (a : Word) : (s.setI a).stack = s.stack := rfl
@[simp] theorem State.setI_DT (a : Word) : (s.setI a).DT = s.DT := rfl
@[simp] theorem State.setI_ST (a : Word) : (s.setI a).ST = s.ST := rfl
@[simp] theorem State.setI_D (a : Word) : (s.setI a).D = s.D := rfl
@[simp] theorem State.setI_key (a : Word) : (s.setI a).key = s.key := rfl
@[simp] theorem State.setI_fault (a : Word) : (s.setI a).fault = s.fault := rfl
@[simp] theorem State.setI_drawIndex (a : Word) : (s.setI a).drawIndex = s.drawIndex := rfl
@[simp] theorem State.setI_reg (a : Word) (r : RegIdx) : (s.setI a).reg r = s.reg r := rfl

/-! ### setPc -/

@[simp] theorem State.setPc_M (a : Word) : (s.setPc a).M = s.M := rfl
@[simp] theorem State.setPc_V (a : Word) : (s.setPc a).V = s.V := rfl
@[simp] theorem State.setPc_I (a : Word) : (s.setPc a).I = s.I := rfl
@[simp] theorem State.setPc_pc (a : Word) : (s.setPc a).pc = a := rfl
@[simp] theorem State.setPc_SP (a : Word) : (s.setPc a).SP = s.SP := rfl
@[simp] theorem State.setPc_stack (a : Word) : (s.setPc a).stack = s.stack := rfl
@[simp] theorem State.setPc_DT (a : Word) : (s.setPc a).DT = s.DT := rfl
@[simp] theorem State.setPc_ST (a : Word) : (s.setPc a).ST = s.ST := rfl
@[simp] theorem State.setPc_D (a : Word) : (s.setPc a).D = s.D := rfl
@[simp] theorem State.setPc_key (a : Word) : (s.setPc a).key = s.key := rfl
@[simp] theorem State.setPc_fault (a : Word) : (s.setPc a).fault = s.fault := rfl
@[simp] theorem State.setPc_drawIndex (a : Word) : (s.setPc a).drawIndex = s.drawIndex := rfl
@[simp] theorem State.setPc_reg (a : Word) (r : RegIdx) : (s.setPc a).reg r = s.reg r := rfl
@[simp] theorem State.setPc_addr (a : Word) (k : Nat) : (s.setPc a).addr k = s.addr k := rfl

/-! ### advancePc -/

@[simp] theorem State.advancePc_M : (s.advancePc).M = s.M := rfl
@[simp] theorem State.advancePc_V : (s.advancePc).V = s.V := rfl
@[simp] theorem State.advancePc_I : (s.advancePc).I = s.I := rfl
@[simp] theorem State.advancePc_pc : (s.advancePc).pc = s.pc + 2 := rfl
@[simp] theorem State.advancePc_SP : (s.advancePc).SP = s.SP := rfl
@[simp] theorem State.advancePc_stack : (s.advancePc).stack = s.stack := rfl
@[simp] theorem State.advancePc_DT : (s.advancePc).DT = s.DT := rfl
@[simp] theorem State.advancePc_ST : (s.advancePc).ST = s.ST := rfl
@[simp] theorem State.advancePc_D : (s.advancePc).D = s.D := rfl
@[simp] theorem State.advancePc_key : (s.advancePc).key = s.key := rfl
@[simp] theorem State.advancePc_fault : (s.advancePc).fault = s.fault := rfl
@[simp] theorem State.advancePc_drawIndex : (s.advancePc).drawIndex = s.drawIndex := rfl
@[simp] theorem State.advancePc_reg (r : RegIdx) : (s.advancePc).reg r = s.reg r := rfl
@[simp] theorem State.advancePc_addr (k : Nat) : (s.advancePc).addr k = s.addr k := rfl

/-! ### rewindPc -/

@[simp] theorem State.rewindPc_M : (s.rewindPc).M = s.M := rfl
@[simp] theorem State.rewindPc_V : (s.rewindPc).V = s.V := rfl
@[simp] theorem State.rewindPc_I : (s.rewindPc).I = s.I := rfl
@[simp] theorem State.rewindPc_pc : (s.rewindPc).pc = s.pc - 2 := rfl
@[simp] theorem State.rewindPc_SP : (s.rewindPc).SP = s.SP := rfl
@[simp] theorem State.rewindPc_stack : (s.rewindPc).stack = s.stack := rfl
@[simp] theorem State.rewindPc_DT : (s.rewindPc).DT = s.DT := rfl
@[simp] theorem State.rewindPc_ST : (s.rewindPc).ST = s.ST := rfl
@[simp] theorem State.rewindPc_D : (s.rewindPc).D = s.D := rfl
@[simp] theorem State.rewindPc_key : (s.rewindPc).key = s.key := rfl
@[simp] theorem State.rewindPc_fault : (s.rewindPc).fault = s.fault := rfl
@[simp] theorem State.rewindPc_drawIndex : (s.rewindPc).drawIndex = s.drawIndex := rfl
@[simp] theorem State.rewindPc_reg (r : RegIdx) : (s.rewindPc).reg r = s.reg r := rfl
@[simp] theorem State.rewindPc_addr (k : Nat) : (s.rewindPc).addr k = s.addr k := rfl

/-! ### setDT -/

@[simp] theorem State.setDT_M (b : Byte) : (s.setDT b).M = s.M := rfl
@[simp] theorem State.setDT_V (b : Byte) : (s.setDT b).V = s.V := rfl
@[simp] theorem State.setDT_I (b : Byte) : (s.setDT b).I = s.I := rfl
@[simp] theorem State.setDT_pc (b : Byte) : (s.setDT b).pc = s.pc := rfl
@[simp] theorem State.setDT_SP (b : Byte) : (s.setDT b).SP = s.SP := rfl
@[simp] theorem State.setDT_stack (b : Byte) : (s.setDT b).stack = s.stack := rfl
@[simp] theorem State.setDT_DT (b : Byte) : (s.setDT b).DT = b := rfl
@[simp] theorem State.setDT_ST (b : Byte) : (s.setDT b).ST = s.ST := rfl
@[simp] theorem State.setDT_D (b : Byte) : (s.setDT b).D = s.D := rfl
@[simp] theorem State.setDT_key (b : Byte) : (s.setDT b).key = s.key := rfl
@[simp] theorem State.setDT_fault (b : Byte) : (s.setDT b).fault = s.fault := rfl
@[simp] theorem State.setDT_drawIndex (b : Byte) : (s.setDT b).drawIndex = s.drawIndex := rfl
@[simp] theorem State.setDT_reg (b : Byte) (r : RegIdx) : (s.setDT b).reg r = s.reg r := rfl
@[simp] theorem State.setDT_addr (b : Byte) (k : Nat) : (s.setDT b).addr k = s.addr k := rfl

/-! ### setST -/

@[simp] theorem State.setST_M (b : Byte) : (s.setST b).M = s.M := rfl
@[simp] theorem State.setST_V (b : Byte) : (s.setST b).V = s.V := rfl
@[simp] theorem State.setST_I (b : Byte) : (s.setST b).I = s.I := rfl
@[simp] theorem State.setST_pc (b : Byte) : (s.setST b).pc = s.pc := rfl
@[simp] theorem State.setST_SP (b : Byte) : (s.setST b).SP = s.SP := rfl
@[simp] theorem State.setST_stack (b : Byte) : (s.setST b).stack = s.stack := rfl
@[simp] theorem State.setST_DT (b : Byte) : (s.setST b).DT = s.DT := rfl
@[simp] theorem State.setST_ST (b : Byte) : (s.setST b).ST = b := rfl
@[simp] theorem State.setST_D (b : Byte) : (s.setST b).D = s.D := rfl
@[simp] theorem State.setST_key (b : Byte) : (s.setST b).key = s.key := rfl
@[simp] theorem State.setST_fault (b : Byte) : (s.setST b).fault = s.fault := rfl
@[simp] theorem State.setST_drawIndex (b : Byte) : (s.setST b).drawIndex = s.drawIndex := rfl
@[simp] theorem State.setST_reg (b : Byte) (r : RegIdx) : (s.setST b).reg r = s.reg r := rfl
@[simp] theorem State.setST_addr (b : Byte) (k : Nat) : (s.setST b).addr k = s.addr k := rfl

/-! ### setD -/

@[simp] theorem State.setD_M (d : Display) : (s.setD d).M = s.M := rfl
@[simp] theorem State.setD_V (d : Display) : (s.setD d).V = s.V := rfl
@[simp] theorem State.setD_I (d : Display) : (s.setD d).I = s.I := rfl
@[simp] theorem State.setD_pc (d : Display) : (s.setD d).pc = s.pc := rfl
@[simp] theorem State.setD_SP (d : Display) : (s.setD d).SP = s.SP := rfl
@[simp] theorem State.setD_stack (d : Display) : (s.setD d).stack = s.stack := rfl
@[simp] theorem State.setD_DT (d : Display) : (s.setD d).DT = s.DT := rfl
@[simp] theorem State.setD_ST (d : Display) : (s.setD d).ST = s.ST := rfl
@[simp] theorem State.setD_D (d : Display) : (s.setD d).D = d := rfl
@[simp] theorem State.setD_key (d : Display) : (s.setD d).key = s.key := rfl
@[simp] theorem State.setD_fault (d : Display) : (s.setD d).fault = s.fault := rfl
@[simp] theorem State.setD_drawIndex (d : Display) : (s.setD d).drawIndex = s.drawIndex := rfl
@[simp] theorem State.setD_reg (d : Display) (r : RegIdx) : (s.setD d).reg r = s.reg r := rfl
@[simp] theorem State.setD_addr (d : Display) (k : Nat) : (s.setD d).addr k = s.addr k := rfl

/-! ### setM -/

@[simp] theorem State.setM_M (m : Memory) : (s.setM m).M = m := rfl
@[simp] theorem State.setM_V (m : Memory) : (s.setM m).V = s.V := rfl
@[simp] theorem State.setM_I (m : Memory) : (s.setM m).I = s.I := rfl
@[simp] theorem State.setM_pc (m : Memory) : (s.setM m).pc = s.pc := rfl
@[simp] theorem State.setM_SP (m : Memory) : (s.setM m).SP = s.SP := rfl
@[simp] theorem State.setM_stack (m : Memory) : (s.setM m).stack = s.stack := rfl
@[simp] theorem State.setM_DT (m : Memory) : (s.setM m).DT = s.DT := rfl
@[simp] theorem State.setM_ST (m : Memory) : (s.setM m).ST = s.ST := rfl
@[simp] theorem State.setM_D (m : Memory) : (s.setM m).D = s.D := rfl
@[simp] theorem State.setM_key (m : Memory) : (s.setM m).key = s.key := rfl
@[simp] theorem State.setM_fault (m : Memory) : (s.setM m).fault = s.fault := rfl
@[simp] theorem State.setM_drawIndex (m : Memory) : (s.setM m).drawIndex = s.drawIndex := rfl
@[simp] theorem State.setM_reg (m : Memory) (r : RegIdx) : (s.setM m).reg r = s.reg r := rfl
@[simp] theorem State.setM_addr (m : Memory) (k : Nat) : (s.setM m).addr k = s.addr k := rfl

/-! ### drawn -/

@[simp] theorem State.drawn_M : (s.drawn).M = s.M := rfl
@[simp] theorem State.drawn_V : (s.drawn).V = s.V := rfl
@[simp] theorem State.drawn_I : (s.drawn).I = s.I := rfl
@[simp] theorem State.drawn_pc : (s.drawn).pc = s.pc := rfl
@[simp] theorem State.drawn_SP : (s.drawn).SP = s.SP := rfl
@[simp] theorem State.drawn_stack : (s.drawn).stack = s.stack := rfl
@[simp] theorem State.drawn_DT : (s.drawn).DT = s.DT := rfl
@[simp] theorem State.drawn_ST : (s.drawn).ST = s.ST := rfl
@[simp] theorem State.drawn_D : (s.drawn).D = s.D := rfl
@[simp] theorem State.drawn_key : (s.drawn).key = s.key := rfl
@[simp] theorem State.drawn_fault : (s.drawn).fault = s.fault := rfl
@[simp] theorem State.drawn_drawIndex : (s.drawn).drawIndex = s.drawIndex + 1 := rfl
@[simp] theorem State.drawn_reg (r : RegIdx) : (s.drawn).reg r = s.reg r := rfl
@[simp] theorem State.drawn_addr (k : Nat) : (s.drawn).addr k = s.addr k := rfl

/-! ### takeFault -/

@[simp] theorem State.takeFault_M (rec : FaultRecord) : (s.takeFault rec).M = s.M := rfl
@[simp] theorem State.takeFault_V (rec : FaultRecord) : (s.takeFault rec).V = s.V := rfl
@[simp] theorem State.takeFault_I (rec : FaultRecord) : (s.takeFault rec).I = s.I := rfl
@[simp] theorem State.takeFault_pc (rec : FaultRecord) : (s.takeFault rec).pc = s.pc := rfl
@[simp] theorem State.takeFault_SP (rec : FaultRecord) : (s.takeFault rec).SP = s.SP := rfl
@[simp] theorem State.takeFault_stack (rec : FaultRecord) : (s.takeFault rec).stack = s.stack := rfl
@[simp] theorem State.takeFault_DT (rec : FaultRecord) : (s.takeFault rec).DT = s.DT := rfl
@[simp] theorem State.takeFault_ST (rec : FaultRecord) : (s.takeFault rec).ST = s.ST := rfl
@[simp] theorem State.takeFault_D (rec : FaultRecord) : (s.takeFault rec).D = s.D := rfl
@[simp] theorem State.takeFault_key (rec : FaultRecord) : (s.takeFault rec).key = s.key := rfl
@[simp] theorem State.takeFault_fault (rec : FaultRecord) : (s.takeFault rec).fault = some rec := rfl
@[simp] theorem State.takeFault_drawIndex (rec : FaultRecord) : (s.takeFault rec).drawIndex = s.drawIndex := rfl
@[simp] theorem State.takeFault_reg (rec : FaultRecord) (r : RegIdx) : (s.takeFault rec).reg r = s.reg r := rfl
@[simp] theorem State.takeFault_addr (rec : FaultRecord) (k : Nat) : (s.takeFault rec).addr k = s.addr k := rfl

/-! ### setKeys -/

@[simp] theorem State.setKeys_M (ks : Keys) : (s.setKeys ks).M = s.M := rfl
@[simp] theorem State.setKeys_V (ks : Keys) : (s.setKeys ks).V = s.V := rfl
@[simp] theorem State.setKeys_I (ks : Keys) : (s.setKeys ks).I = s.I := rfl
@[simp] theorem State.setKeys_pc (ks : Keys) : (s.setKeys ks).pc = s.pc := rfl
@[simp] theorem State.setKeys_SP (ks : Keys) : (s.setKeys ks).SP = s.SP := rfl
@[simp] theorem State.setKeys_stack (ks : Keys) : (s.setKeys ks).stack = s.stack := rfl
@[simp] theorem State.setKeys_DT (ks : Keys) : (s.setKeys ks).DT = s.DT := rfl
@[simp] theorem State.setKeys_ST (ks : Keys) : (s.setKeys ks).ST = s.ST := rfl
@[simp] theorem State.setKeys_D (ks : Keys) : (s.setKeys ks).D = s.D := rfl
@[simp] theorem State.setKeys_key (ks : Keys) : (s.setKeys ks).key = ks := rfl
@[simp] theorem State.setKeys_fault (ks : Keys) : (s.setKeys ks).fault = s.fault := rfl
@[simp] theorem State.setKeys_drawIndex (ks : Keys) : (s.setKeys ks).drawIndex = s.drawIndex := rfl
@[simp] theorem State.setKeys_reg (ks : Keys) (r : RegIdx) : (s.setKeys ks).reg r = s.reg r := rfl
@[simp] theorem State.setKeys_addr (ks : Keys) (k : Nat) : (s.setKeys ks).addr k = s.addr k := rfl

/-! ### tick -/

@[simp] theorem State.tick_M : (s.tick).M = s.M := rfl
@[simp] theorem State.tick_V : (s.tick).V = s.V := rfl
@[simp] theorem State.tick_I : (s.tick).I = s.I := rfl
@[simp] theorem State.tick_pc : (s.tick).pc = s.pc := rfl
@[simp] theorem State.tick_SP : (s.tick).SP = s.SP := rfl
@[simp] theorem State.tick_stack : (s.tick).stack = s.stack := rfl
@[simp] theorem State.tick_DT : (s.tick).DT = tickTimer s.DT := rfl
@[simp] theorem State.tick_ST : (s.tick).ST = tickTimer s.ST := rfl
@[simp] theorem State.tick_D : (s.tick).D = s.D := rfl
@[simp] theorem State.tick_key : (s.tick).key = s.key := rfl
@[simp] theorem State.tick_fault : (s.tick).fault = s.fault := rfl
@[simp] theorem State.tick_drawIndex : (s.tick).drawIndex = s.drawIndex := rfl
@[simp] theorem State.tick_reg (r : RegIdx) : (s.tick).reg r = s.reg r := rfl
@[simp] theorem State.tick_addr (k : Nat) : (s.tick).addr k = s.addr k := rfl

/-! ### writeSpan -/

@[simp] theorem State.writeSpan_M (bs : List Byte) : (s.writeSpan bs).M = s.M.writeBytes (s.addr 0) bs := rfl
@[simp] theorem State.writeSpan_V (bs : List Byte) : (s.writeSpan bs).V = s.V := rfl
@[simp] theorem State.writeSpan_I (bs : List Byte) : (s.writeSpan bs).I = s.I := rfl
@[simp] theorem State.writeSpan_pc (bs : List Byte) : (s.writeSpan bs).pc = s.pc := rfl
@[simp] theorem State.writeSpan_SP (bs : List Byte) : (s.writeSpan bs).SP = s.SP := rfl
@[simp] theorem State.writeSpan_stack (bs : List Byte) : (s.writeSpan bs).stack = s.stack := rfl
@[simp] theorem State.writeSpan_DT (bs : List Byte) : (s.writeSpan bs).DT = s.DT := rfl
@[simp] theorem State.writeSpan_ST (bs : List Byte) : (s.writeSpan bs).ST = s.ST := rfl
@[simp] theorem State.writeSpan_D (bs : List Byte) : (s.writeSpan bs).D = s.D := rfl
@[simp] theorem State.writeSpan_key (bs : List Byte) : (s.writeSpan bs).key = s.key := rfl
@[simp] theorem State.writeSpan_fault (bs : List Byte) : (s.writeSpan bs).fault = s.fault := rfl
@[simp] theorem State.writeSpan_drawIndex (bs : List Byte) : (s.writeSpan bs).drawIndex = s.drawIndex := rfl
@[simp] theorem State.writeSpan_reg (bs : List Byte) (r : RegIdx) : (s.writeSpan bs).reg r = s.reg r := rfl
@[simp] theorem State.writeSpan_addr (bs : List Byte) (k : Nat) : (s.writeSpan bs).addr k = s.addr k := rfl

/-! ### loadRegs -/

@[simp] theorem State.loadRegs_M (n : Nat) : (s.loadRegs n).M = s.M := rfl
@[simp] theorem State.loadRegs_I (n : Nat) : (s.loadRegs n).I = s.I := rfl
@[simp] theorem State.loadRegs_pc (n : Nat) : (s.loadRegs n).pc = s.pc := rfl
@[simp] theorem State.loadRegs_SP (n : Nat) : (s.loadRegs n).SP = s.SP := rfl
@[simp] theorem State.loadRegs_stack (n : Nat) : (s.loadRegs n).stack = s.stack := rfl
@[simp] theorem State.loadRegs_DT (n : Nat) : (s.loadRegs n).DT = s.DT := rfl
@[simp] theorem State.loadRegs_ST (n : Nat) : (s.loadRegs n).ST = s.ST := rfl
@[simp] theorem State.loadRegs_D (n : Nat) : (s.loadRegs n).D = s.D := rfl
@[simp] theorem State.loadRegs_key (n : Nat) : (s.loadRegs n).key = s.key := rfl
@[simp] theorem State.loadRegs_fault (n : Nat) : (s.loadRegs n).fault = s.fault := rfl
@[simp] theorem State.loadRegs_drawIndex (n : Nat) : (s.loadRegs n).drawIndex = s.drawIndex := rfl
@[simp] theorem State.loadRegs_addr (n : Nat) (k : Nat) : (s.loadRegs n).addr k = s.addr k := rfl

/-! ### Reading a register after a write -/

@[simp] theorem State.setReg_reg_self (x : RegIdx) (b : Byte) : (s.setReg x b).reg x = b := by
  simp [State.reg, State.setReg]

theorem State.setReg_reg (x r : RegIdx) (b : Byte) : (s.setReg x b).reg r = if r = x then b else s.reg r := by
  by_cases h : r = x
  · subst h; simp
  · have h' : x.val ≠ r.val := fun e => h (Fin.ext e.symm)
    simp [State.reg, State.setReg, h, h']

@[simp] theorem State.setReg_reg_ne {x r : RegIdx} (b : Byte) (h : r ≠ x) : (s.setReg x b).reg r = s.reg r := by
  rw [State.setReg_reg, if_neg h]

theorem State.setFlag_reg (r : RegIdx) (b : Byte) : (s.setFlag b).reg r = if r = VF then b else s.reg r :=
  s.setReg_reg VF r b

theorem State.loadRegs_reg (n : Nat) (r : RegIdx) :
    (s.loadRegs n).reg r = if r.val < n then s.M.read (s.addr r.val) else s.reg r := by
  simp [State.loadRegs, State.reg]

/-! ### A skip -/

@[simp] theorem State.skipIf_M (c : Bool) : (s.skipIf c).M = s.M := by cases c <;> rfl
@[simp] theorem State.skipIf_V (c : Bool) : (s.skipIf c).V = s.V := by cases c <;> rfl
@[simp] theorem State.skipIf_I (c : Bool) : (s.skipIf c).I = s.I := by cases c <;> rfl
@[simp] theorem State.skipIf_pc (c : Bool) : (s.skipIf c).pc = if c then s.pc + 2 else s.pc := by cases c <;> rfl
@[simp] theorem State.skipIf_SP (c : Bool) : (s.skipIf c).SP = s.SP := by cases c <;> rfl
@[simp] theorem State.skipIf_stack (c : Bool) : (s.skipIf c).stack = s.stack := by cases c <;> rfl
@[simp] theorem State.skipIf_DT (c : Bool) : (s.skipIf c).DT = s.DT := by cases c <;> rfl
@[simp] theorem State.skipIf_ST (c : Bool) : (s.skipIf c).ST = s.ST := by cases c <;> rfl
@[simp] theorem State.skipIf_D (c : Bool) : (s.skipIf c).D = s.D := by cases c <;> rfl
@[simp] theorem State.skipIf_key (c : Bool) : (s.skipIf c).key = s.key := by cases c <;> rfl
@[simp] theorem State.skipIf_fault (c : Bool) : (s.skipIf c).fault = s.fault := by cases c <;> rfl
@[simp] theorem State.skipIf_drawIndex (c : Bool) : (s.skipIf c).drawIndex = s.drawIndex := by cases c <;> rfl
@[simp] theorem State.skipIf_reg (c : Bool) (r : RegIdx) : (s.skipIf c).reg r = s.reg r := by cases c <;> rfl

end Sys2Proof.Machine
end

