-- ==== Sys2Proof/Laws/Ops.lean ====
section
/-! SUPPORT. One lemma for each shared operation that says everything it can do. -/

namespace Sys2Proof.Machine

variable (s t : State)

/-! ### The call stack -/

/-- A push happens exactly below 16, and writes the slot at SP. -/
theorem State.push_spec (a : Word) :
    (∃ h : s.SP.val < 16, s.push a =
      some { s with stack := s.stack.set s.SP.val a h, SP := ⟨s.SP.val + 1, by omega⟩ }) ∨
    (s.SP.val = 16 ∧ s.push a = none) := by
  by_cases h : s.SP.val < 16
  · exact .inl ⟨h, by rw [State.push, dif_pos h]⟩
  · exact .inr ⟨by have := s.SP.isLt; omega, by rw [State.push, dif_neg h]⟩

/-- A pop happens exactly above 0, and answers the slot below SP, which it keeps. -/
theorem State.pop_spec :
    (∃ (_ : 0 < s.SP.val) (h : s.SP.val - 1 < 16),
      s.pop = some (s.stack[s.SP.val - 1], { s with SP := ⟨s.SP.val - 1, by omega⟩ })) ∨
    (s.SP.val = 0 ∧ s.pop = none) := by
  by_cases h : 0 < s.SP.val
  · exact .inl ⟨h, by have := s.SP.isLt; omega, by rw [State.pop, dif_pos h]⟩
  · exact .inr ⟨by omega, by rw [State.pop, dif_neg h]⟩

/-! ### Ranges of addresses -/

/-- No address is out of range exactly if none is touched or the last one is in the space. -/
theorem badAddr_eq_none {base count : Nat} : badAddr base count = none ↔ count = 0 ∨ base + count ≤ 0x1000 := by
  unfold badAddr
  split
  · next h => simp; omega
  · next h => simp; omega

/-- The address reported is out of range, touched, and the lowest such one. -/
theorem badAddr_eq_some {base count a : Nat} (h : badAddr base count = some a) :
    0 < count ∧ 0x1000 < base + count ∧ a = max base 0x1000 := by
  unfold badAddr at h
  split at h
  · next hc => exact ⟨hc.1, by omega, by simpa using h.symm⟩
  · cases h

/-- An instruction over a span either finds it in range and has its effect, or raises with the lowest address. -/
theorem State.withSpan_cases (c : Cause) (n : Nat) (r : Result) :
    ((n = 0 ∨ s.I.toNat + n ≤ 0x1000) ∧ s.withSpan c n r = r) ∨
    (0 < n ∧ 0x1000 < s.I.toNat + n ∧ s.withSpan c n r = raise c (some (max s.I.toNat 0x1000))) := by
  unfold State.withSpan
  cases h : badAddr (s.addr 0) n with
  | none => exact .inl ⟨badAddr_eq_none.mp h, rfl⟩
  | some a =>
    obtain ⟨h0, h1, rfl⟩ := badAddr_eq_some h
    exact .inr ⟨h0, h1, rfl⟩

/-! ### Keys -/

/-- A key instruction either has its effect on the key that `V[x]` names or raises KEY_RANGE. -/
theorem State.withKey_cases (x : RegIdx) (f : KeyIdx → Result) :
    (∃ h : (s.reg x).toNat < 16, s.withKey x f = f ⟨(s.reg x).toNat, h⟩) ∨
    (16 ≤ (s.reg x).toNat ∧ s.withKey x f = raise .keyRange (some (s.reg x).toNat)) := by
  by_cases h : (s.reg x).toNat < 16
  · exact .inl ⟨h, by rw [State.withKey, dif_pos h]⟩
  · exact .inr ⟨by omega, by rw [State.withKey, dif_neg h]⟩

/-- A scan that keeps the last index for which `p` holds. -/
theorem foldl_last {α : Type} (p : α → Bool) (l : List α) (init : Option α) :
    l.foldl (fun found k => if p k then some k else found) init = ((l.filter p).getLast?).or init := by
  induction l generalizing init with
  | nil => simp
  | cons k l ih =>
    rw [List.foldl_cons, ih]
    by_cases h : p k
    · cases hl : l.filter p <;> simp [h, hl, List.getLast?_cons]
    · simp [h]

/-- The scan of wait-for-key answers no key exactly if none is pressed, and else the highest pressed one. -/
theorem State.scanKeys_cases :
    (s.scanKeys = none ∧ ∀ k, s.pressed k = false) ∨
    (∃ k, s.scanKeys = some k ∧ s.pressed k = true ∧ ∀ j, s.pressed j = true → j ≤ k) := by
  have hs : s.scanKeys = ((List.finRange 16).filter s.pressed).getLast? := by
    rw [State.scanKeys, foldl_last]; simp
  cases h : (List.finRange 16).filter s.pressed with
  | nil =>
    refine .inl ⟨by rw [hs, h]; rfl, fun k => ?_⟩
    have := List.filter_eq_nil_iff.mp h k (List.mem_finRange k)
    simpa using this
  | cons k0 rest =>
    have hne : (List.finRange 16).filter s.pressed ≠ [] := by rw [h]; simp
    refine .inr ⟨_, by rw [hs, List.getLast?_eq_some_getLast hne], ?_, fun j hj => ?_⟩
    · exact (List.mem_filter.mp (List.getLast_mem hne)).2
    · have hsorted : ((List.finRange 16).filter s.pressed).Pairwise (· ≤ ·) :=
        List.Pairwise.filter _ ((List.pairwise_lt_finRange 16).imp fun hab => Nat.le_of_lt hab)
      have hmem : j ∈ (List.finRange 16).filter s.pressed := List.mem_filter.mpr ⟨List.mem_finRange j, hj⟩
      obtain ⟨l, hl⟩ : ∃ l, (List.finRange 16).filter s.pressed = l ++ [((List.finRange 16).filter s.pressed).getLast hne] :=
        ⟨_, (List.dropLast_append_getLast hne).symm⟩
      rw [hl] at hmem hsorted
      rcases List.mem_append.mp hmem with hj' | hj'
      · exact (List.pairwise_append.mp hsorted).2.2 j hj' _ (by simp)
      · exact Nat.le_of_eq (congrArg Fin.val (List.mem_singleton.mp hj'))

/-! ### Spans of bytes -/

@[simp] theorem State.readSpan_length (n : Nat) : (s.readSpan n).length = n := by simp [State.readSpan]

@[simp] theorem State.readSpan_getElem? {n k : Nat} (h : k < n) : (s.readSpan n)[k]? = some (s.M.read (s.addr k)) := by
  simp [State.readSpan, h]

@[simp] theorem State.firstRegs_length {n : Nat} (h : n ≤ 16) : (s.firstRegs n).length = n := by
  simp [State.firstRegs, h]

@[simp] theorem State.firstRegs_getElem? {n : Nat} (k : RegIdx) (h : k.val < n) :
    (s.firstRegs n)[k.val]? = some (s.reg k) := by
  simp [State.firstRegs, h]

@[simp] theorem bcdDigits_length (v : Byte) : (bcdDigits v).length = 3 := rfl

/-! ### The parts of the cycle -/

/-- The fetch answers the word at the pc, or the fault of a pc out of range. -/
theorem fetch_cases :
    (s.pc.toNat ≤ 0xFFE ∧ fetch s = .ok s.word) ∨
    (0xFFE < s.pc.toNat ∧ fetch s = .error (.raised .memRangeFetch (some s.pc.toNat))) := by
  unfold fetch
  split
  · next h => exact .inr ⟨h, rfl⟩
  · next h => exact .inl ⟨by omega, rfl⟩

/-- A tick is a decrement that stops at 0. -/
@[simp] theorem tickTimer_toNat (b : Byte) : (tickTimer b).toNat = b.toNat - 1 := by
  unfold tickTimer
  split
  · next h => rw [BitVec.toNat_sub_of_le (by rw [BitVec.le_def]; exact h)]; rfl
  · next h => omega

/-- A finished cycle is a next state exactly if the instruction answered one, which then ticks. -/
theorem finishCycle_eq_next {a w : Word} {r : Result} :
    finishCycle a w r = .next t ↔ ∃ u, r = .next u ∧ t = u.tick := by
  cases r <;> simp [finishCycle, eq_comm]

/-- It is a fault exactly if the instruction answered one, whose record it is. -/
theorem finishCycle_eq_fault {a w : Word} {r : Result} {f : Fault} :
    finishCycle a w r = .fault f ↔ ∃ g, r = .fault g ∧ f = g.record a (some w) := by
  cases r <;> simp [finishCycle, eq_comm]

/-- It is a refusal exactly if the instruction answered one. -/
theorem finishCycle_eq_refused {a w : Word} {r : Result} {q : Refusal} :
    finishCycle a w r = .refused q ↔ r = .refused q := by
  cases r <;> simp [finishCycle]

end Sys2Proof.Machine
end

