-- ==== Sys2Proof/Laws/PerInstr.lean ====
section
/-! SUPPORT. Statements made for each instruction. Family OpcodeBits: the word that the encoder writes has the fixed
bits of the instruction's row of spec/opcode_table.json, so that the row's `match` and `mask` select it. -/

namespace Sys2Proof.Laws.OpcodeBits

/-- `(encode i AND mask) = match` for the instruction's row (30_encoding.md section 6). -/
def Statement (i : Instr) : Prop := encode i &&& i.opMask = i.opMatch

theorem cls : Statement .cls := rfl
theorem ret : Statement .ret := rfl
theorem jp (nnn : Addr12) : Statement (.jp nnn) := wordNnn_and_cat _ _
theorem call (nnn : Addr12) : Statement (.call nnn) := wordNnn_and_cat _ _
theorem seImm (x : RegIdx) (kk : Byte) : Statement (.seImm x kk) := wordNnn_and_cat _ _
theorem sneImm (x : RegIdx) (kk : Byte) : Statement (.sneImm x kk) := wordNnn_and_cat _ _
theorem seReg (x y : RegIdx) : Statement (.seReg x y) := wordNnn_and_cat _ _
theorem ldImm (x : RegIdx) (kk : Byte) : Statement (.ldImm x kk) := wordNnn_and_cat _ _
theorem addImm (x : RegIdx) (kk : Byte) : Statement (.addImm x kk) := wordNnn_and_cat _ _
theorem ldReg (x y : RegIdx) : Statement (.ldReg x y) := wordXyn_and_key _ _ _ _
theorem orReg (x y : RegIdx) : Statement (.orReg x y) := wordXyn_and_key _ _ _ _
theorem andReg (x y : RegIdx) : Statement (.andReg x y) := wordXyn_and_key _ _ _ _
theorem xorReg (x y : RegIdx) : Statement (.xorReg x y) := wordXyn_and_key _ _ _ _
theorem addReg (x y : RegIdx) : Statement (.addReg x y) := wordXyn_and_key _ _ _ _
theorem sub (x y : RegIdx) : Statement (.sub x y) := wordXyn_and_key _ _ _ _
theorem shr (x : RegIdx) : Statement (.shr x) := wordXin_and_key _ _ _ _
theorem subn (x y : RegIdx) : Statement (.subn x y) := wordXyn_and_key _ _ _ _
theorem shl (x : RegIdx) : Statement (.shl x) := wordXin_and_key _ _ _ _
theorem sneReg (x y : RegIdx) : Statement (.sneReg x y) := wordNnn_and_cat _ _
theorem ldI (nnn : Addr12) : Statement (.ldI nnn) := wordNnn_and_cat _ _
theorem jpV0 (nnn : Addr12) : Statement (.jpV0 nnn) := wordNnn_and_cat _ _
theorem rnd (x : RegIdx) (kk : Byte) : Statement (.rnd x kk) := wordNnn_and_cat _ _
theorem drw (x y : RegIdx) (n : Fin 16) : Statement (.drw x y n) := wordNnn_and_cat _ _
theorem skp (x : RegIdx) : Statement (.skp x) := wordXin_and_key _ _ _ _
theorem sknp (x : RegIdx) : Statement (.sknp x) := wordXin_and_key _ _ _ _
theorem ldVxDt (x : RegIdx) : Statement (.ldVxDt x) := wordXkk_and_key _ _ _
theorem ldVxK (x : RegIdx) : Statement (.ldVxK x) := wordXkk_and_key _ _ _
theorem ldDtVx (x : RegIdx) : Statement (.ldDtVx x) := wordXkk_and_key _ _ _
theorem ldStVx (x : RegIdx) : Statement (.ldStVx x) := wordXkk_and_key _ _ _
theorem addI (x : RegIdx) : Statement (.addI x) := wordXkk_and_key _ _ _
theorem ldF (x : RegIdx) : Statement (.ldF x) := wordXkk_and_key _ _ _
theorem ldB (x : RegIdx) : Statement (.ldB x) := wordXkk_and_key _ _ _
theorem stRegs (x : RegIdx) : Statement (.stRegs x) := wordXkk_and_key _ _ _
theorem ldRegs (x : RegIdx) : Statement (.ldRegs x) := wordXkk_and_key _ _ _
theorem nop0 (rest : Addr12) : Statement (.nop0 rest) := wordNnn_and_cat _ _
theorem nop8 (rest : Addr12) : Statement (.nop8 rest) := wordNnn_and_cat _ _
theorem nopE (rest : Addr12) : Statement (.nopE rest) := wordNnn_and_cat _ _
theorem nopF (rest : Addr12) : Statement (.nopF rest) := wordNnn_and_cat _ _

end Sys2Proof.Laws.OpcodeBits
end

