-- ==== Sys2Proof/Laws/Sprite.lean ====
section
/-! SUPPORT. What drawing does to a pixel: it is toggled once if a sprite bit lands on it, and the hit is set if one
lands on a pixel that is on. -/

namespace Sys2Proof.Machine

open Sys2Proof.Config (SpriteEdge)

theorem Display.get_toggle (d : Display) (row r : Fin 32) (col c : Fin 64) :
    (d.toggle row col).get r c = if r = row ∧ c = col then !d.get r c else d.get r c := by
  by_cases hr : r = row
  · subst hr
    by_cases hc : c = col
    · subst hc; simp [Display.get, Display.toggle]
    · have h : col.val ≠ c.val := fun e => hc (Fin.ext e.symm)
      simp [Display.get, Display.toggle, hc, h]
  · have h : row.val ≠ r.val := fun e => hr (Fin.ext e.symm)
    simp [Display.get, Display.toggle, hr, h]

@[simp] theorem Display.get_clear (r : Fin 32) (c : Fin 64) : Display.clear.get r c = false := by
  simp [Display.get, Display.clear]

/-- Two displays with the same pixels are the same. -/
theorem Display.ext_get {d e : Display} (h : ∀ r c, d.get r c = e.get r c) : d = e := by
  apply Vector.ext
  intro i hi
  apply Vector.ext
  intro j hj
  exact h ⟨i, hi⟩ ⟨j, hj⟩

/-- Where a pixel is placed determines the pixel, within one sprite: two pixels less than 64 columns and 32 rows
apart never share a place. -/
theorem place_inj {edge : SpriteEdge} {px py px' py' : Nat} {p : Fin 32 × Fin 64}
    (h : place edge px py = some p) (h' : place edge px' py' = some p)
    (hx : px < px' + 64 ∧ px' < px + 64) (hy : py < py' + 32 ∧ py' < py + 32) : px = px' ∧ py = py' := by
  obtain ⟨row, col⟩ := p
  cases edge with
  | clip =>
    simp only [place] at h h'
    split at h
    · split at h'
      · simp only [Option.some.injEq, Prod.mk.injEq, Fin.ext_iff] at h h'
        exact ⟨by omega, by omega⟩
      · cases h'
    · cases h
  | wrap =>
    simp only [place, Option.some.injEq, Prod.mk.injEq, Fin.ext_iff] at h h'
    exact ⟨by omega, by omega⟩

/-- What a canvas `c'` drawn from `c` must satisfy: the pixels of `P` toggled once, and a hit for each that was on. -/
structure Drawn (P : Fin 32 → Fin 64 → Prop) (c c' : Canvas) : Prop where
  on : ∀ r k, P r k → c'.display.get r k = !c.display.get r k
  off : ∀ r k, ¬ P r k → c'.display.get r k = c.display.get r k
  hit : c'.hit = true ↔ c.hit = true ∨ ∃ r k, P r k ∧ c.display.get r k = true

theorem Drawn.congr {P Q : Fin 32 → Fin 64 → Prop} {c c' : Canvas} (h : Drawn P c c') (e : ∀ r k, P r k ↔ Q r k) :
    Drawn Q c c' := by
  have : P = Q := by funext r k; exact propext (e r k)
  rwa [← this]

theorem Drawn.none (c : Canvas) : Drawn (fun _ _ => False) c c := ⟨by simp, by simp, by simp⟩

/-- Drawing disjoint sets of pixels one after the other draws their union. -/
theorem Drawn.trans {P Q : Fin 32 → Fin 64 → Prop} {c c' c'' : Canvas} (h : Drawn P c c') (h' : Drawn Q c' c'')
    (hd : ∀ r k, P r k → ¬ Q r k) : Drawn (fun r k => P r k ∨ Q r k) c c'' := by
  refine ⟨fun r k hp => ?_, fun r k hp => ?_, ?_⟩
  · rcases hp with hp | hq
    · rw [h'.off r k (hd r k hp), h.on r k hp]
    · rw [h'.on r k hq, h.off r k fun hp => hd r k hp hq]
  · rw [h'.off r k fun hq => hp (.inr hq), h.off r k fun hq => hp (.inl hq)]
  · rw [h'.hit, h.hit]
    constructor
    · rintro ((hc | ⟨r, k, hp, hon⟩) | ⟨r, k, hq, hon⟩)
      · exact .inl hc
      · exact .inr ⟨r, k, .inl hp, hon⟩
      · exact .inr ⟨r, k, .inr hq, by rwa [h.off r k fun hp => hd r k hp hq] at hon⟩
    · rintro (hc | ⟨r, k, hp | hq, hon⟩)
      · exact .inl (.inl hc)
      · exact .inl (.inr ⟨r, k, hp, hon⟩)
      · exact .inr ⟨r, k, hq, by rwa [h.off r k fun hp => hd r k hp hq]⟩

/-- A plotted bit draws the one pixel it is placed on, if any (R172, R173). -/
theorem Canvas.plot_drawn (c : Canvas) (edge : SpriteEdge) (px py : Nat) :
    Drawn (fun r k => place edge px py = some (r, k)) c (c.plot edge px py) := by
  unfold Canvas.plot
  cases h : place edge px py with
  | none => exact (Drawn.none c).congr (by simp)
  | some p =>
    obtain ⟨row, col⟩ := p
    refine ⟨fun r k e => ?_, fun r k e => ?_, ?_⟩
    · simp only [Option.some.injEq, Prod.mk.injEq] at e
      simp [Display.get_toggle, e.1, e.2]
    · have hne : ¬ (r = row ∧ k = col) := fun hc => e (by rw [hc.1, hc.2])
      simp [Display.get_toggle, hne]
    · simp [Bool.or_eq_true]

/-- A row of the sprite draws the pixels its bits are placed on. -/
theorem Canvas.drawRow_drawn (c : Canvas) (edge : SpriteEdge) (xo py : Nat) (b : Byte) :
    Drawn (fun r k => ∃ j, j < 8 ∧ b.getLsbD (7 - j) = true ∧ place edge (xo + j) py = some (r, k)) c
      (c.drawRow edge xo py b) := by
  have key : ∀ n, n ≤ 8 →
      Drawn (fun r k => ∃ j, j < n ∧ b.getLsbD (7 - j) = true ∧ place edge (xo + j) py = some (r, k)) c
        ((List.range n).foldl (fun c k => if b.getLsbD (7 - k) then c.plot edge (xo + k) py else c) c) := by
    intro n
    induction n with
    | zero => intro _; exact (Drawn.none c).congr (by simp)
    | succ n ih =>
      intro hn
      rw [List.range_succ, List.foldl_append, List.foldl_cons, List.foldl_nil]
      have h := ih (by omega)
      split
      · next hb =>
        refine (h.trans (Canvas.plot_drawn _ edge (xo + n) py) ?_).congr fun r k => ?_
        · rintro r k ⟨j, hj, -, hp⟩ hq
          have := (place_inj hp hq ⟨by omega, by omega⟩ ⟨by omega, by omega⟩).1
          omega
        · constructor
          · rintro (⟨j, hj, hb', hp⟩ | hq)
            · exact ⟨j, by omega, hb', hp⟩
            · exact ⟨n, by omega, hb, hq⟩
          · rintro ⟨j, hj, hb', hp⟩
            rcases Nat.lt_succ_iff_lt_or_eq.mp hj with hj' | rfl
            · exact .inl ⟨j, hj', hb', hp⟩
            · exact .inr hp
      · next hb =>
        refine h.congr fun r k => ⟨?_, ?_⟩
        · rintro ⟨j, hj, hb', hp⟩; exact ⟨j, by omega, hb', hp⟩
        · rintro ⟨j, hj, hb', hp⟩
          rcases Nat.lt_succ_iff_lt_or_eq.mp hj with hj' | rfl
          · exact ⟨j, hj', hb', hp⟩
          · exact absurd hb' hb
  exact key 8 (by omega)

/-- A sprite of at most 32 rows draws the pixels its bits land on, each once (R171). -/
theorem Canvas.drawRows_drawn (edge : SpriteEdge) (xo : Nat) (sprite : List Byte) :
    ∀ (c : Canvas) (yo : Nat), sprite.length ≤ 32 →
      Drawn (Lands edge xo yo sprite) c (c.drawRows edge xo yo sprite) := by
  induction sprite with
  | nil => intro c yo _; exact (Drawn.none c).congr (by simp [Lands])
  | cons b bs ih =>
    intro c yo hlen
    simp only [List.length_cons] at hlen
    refine ((Canvas.drawRow_drawn c edge xo yo b).trans (ih _ (yo + 1) (by omega)) ?_).congr fun r k => ?_
    · rintro r k ⟨j, hj, -, hp⟩ ⟨i, j', hj', ⟨b', hb', -⟩, hq⟩
      have hi : i < bs.length := (List.getElem?_eq_some_iff.mp hb').1
      have := (place_inj hp hq ⟨by omega, by omega⟩ ⟨by omega, by omega⟩).2
      omega
    · constructor
      · rintro (⟨j, hj, hb, hp⟩ | ⟨i, j, hj, ⟨b', hb', hbit⟩, hp⟩)
        · exact ⟨0, j, hj, ⟨b, by simp, hb⟩, hp⟩
        · exact ⟨i + 1, j, hj, ⟨b', by simpa using hb', hbit⟩, by rw [← hp]; congr 1; omega⟩
      · rintro ⟨i, j, hj, ⟨b', hb', hbit⟩, hp⟩
        cases i with
        | zero =>
          simp only [List.getElem?_cons_zero, Option.some.injEq] at hb'
          exact .inl ⟨j, hj, hb' ▸ hbit, hp⟩
        | succ i => exact .inr ⟨i, j, hj, ⟨b', by simpa using hb', hbit⟩, by rw [← hp]; congr 1; omega⟩

/-- What a sprite does to the display, with `hit` 0 before (R171, R173). -/
theorem drawSprite_drawn (edge : SpriteEdge) (d : Display) (xo yo : Nat) (sprite : List Byte)
    (h : sprite.length ≤ 32) : Drawn (Lands edge xo yo sprite) { display := d, hit := false }
      (drawSprite edge d xo yo sprite) :=
  Canvas.drawRows_drawn edge xo sprite _ yo h

end Sys2Proof.Machine
end

