-- ==== Sys2Proof/Laws/Step.lean ====
section
/-! SUPPORT. Everything a step can do, said once. -/

namespace Sys2Proof.Machine

variable {s t : State} {f : Fault} {q : Refusal}

/-- With no fault recorded and the pc in range, a step is the decoded instruction from the post-fetch state, then
the end of the cycle (R83). -/
theorem step_eq (hf : s.fault = none) (hpc : s.pc.toNat ≤ 0xFFE) :
    step s = finishCycle s.pc s.word (exec (decode s.word) s.advancePc) := by
  rcases fetch_cases s with ⟨-, h⟩ | ⟨h, -⟩
  · simp [step, cycle, hf, h]
  · omega

/-- A step answers a next state only so. -/
theorem step_next_cases (h : step s = .next t) :
    s.fault = none ∧ s.pc.toNat ≤ 0xFFE ∧
      ∃ u, exec (decode s.word) s.advancePc = .next u ∧ t = u.tick := by
  cases hf : s.fault with
  | some r => simp [step, hf] at h
  | none =>
    rcases fetch_cases s with ⟨hpc, -⟩ | ⟨-, hq⟩
    · rw [step_eq hf hpc, finishCycle_eq_next] at h
      exact ⟨rfl, hpc, h⟩
    · simp [step, cycle, hf, hq] at h

/-- A step answers a fault only so: the record already set, the fetch out of range, or a raise of the instruction. -/
theorem step_fault_cases (h : step s = .fault f) :
    (∃ r, s.fault = some r ∧ f = .recorded r) ∨
    (s.fault = none ∧ 0xFFE < s.pc.toNat ∧
      f = .recorded { cause := .memRangeFetch, pc := s.pc, word := none, info := some s.pc.toNat }) ∨
    (s.fault = none ∧ s.pc.toNat ≤ 0xFFE ∧
      ∃ g, exec (decode s.word) s.advancePc = .fault g ∧ f = g.record s.pc (some s.word)) := by
  cases hf : s.fault with
  | some r => simp [step, hf] at h; exact .inl ⟨r, rfl, h.symm⟩
  | none =>
    rcases fetch_cases s with ⟨hpc, -⟩ | ⟨hpc, hq⟩
    · rw [step_eq hf hpc, finishCycle_eq_fault] at h
      exact .inr (.inr ⟨rfl, hpc, h⟩)
    · simp [step, cycle, hf, hq, Fault.record] at h
      exact .inr (.inl ⟨rfl, hpc, h.symm⟩)

/-- A step is refused only if the instruction is. -/
theorem step_refused_cases (h : step s = .refused q) : exec (decode s.word) s.advancePc = .refused q := by
  cases hf : s.fault with
  | some r => simp [step, hf] at h
  | none =>
    rcases fetch_cases s with ⟨hpc, -⟩ | ⟨-, hq⟩
    · rw [step_eq hf hpc, finishCycle_eq_refused] at h; exact h
    · simp [step, cycle, hf, hq] at h

/-- What memory reads after a store over a span in range: the byte stored there, if one was, and else the old one. -/
theorem State.read_writeSpan {bs : List Byte} {a : Nat} (hw : s.M.wf = true) (hr : s.I.toNat + bs.length ≤ 0x1000) :
    (s.writeSpan bs).M.read a = s.byteAfterStore (bs.map BitVec.toNat) a := by
  rw [State.writeSpan_M, Memory.read_writeBytes hw (by simpa [State.addr, Config.memSize] using hr)]
  simp only [State.byteAfterStore, State.addr, Nat.add_zero, List.length_map]
  by_cases h1 : s.I.toNat ≤ a
  · by_cases h2 : a < s.I.toNat + bs.length
    · have h3 : a - s.I.toNat < bs.length := by omega
      simp [h1, h2, h3]
    · rw [List.getElem?_eq_none (by omega)]
      simp [h1, h2]
  · simp [h1]

end Sys2Proof.Machine
end

