-- ==== Sys2Proof/Tests/Slice0.lean ====
section
/-! SUPPORT. The model's own tests. Words are written out from the encoding strings of opcode_table.json; expected
results are the vectors of 95_test_vectors.md, sections 1 and 2. Then, for each statement with hypotheses, a
theorem that shows a state and operands meeting all of them, at the boundary of each clause. -/

namespace Sys2Proof.Tests

open Sys2Proof Sys2Proof.Machine

/-! ### Helpers -/

/-- Registers set from a list, on the state after reset. -/
def regs (l : List (RegIdx × Byte)) : State := l.foldl (fun s p => s.setReg p.1 p.2) State.reset

/-- Bytes of memory set from a list. -/
def poke (l : List (Nat × Byte)) (s : State) : State := l.foldl (fun s p => s.setM (s.M.write p.1 p.2)) s

/-- One slot of the call stack set. -/
def slot (j : Fin 16) (a : Word) (s : State) : State := { s with stack := s.stack.set j.val a j.isLt }

/-- Keys pressed. -/
def press (l : List Nat) (s : State) : State := s.setKeys (Vector.ofFn fun k => l.contains k.val)

/-- Pixels toggled on. -/
def light (l : List (Fin 32 × Fin 64)) (s : State) : State :=
  s.setD (l.foldl (fun d p => d.toggle p.1 p.2) s.D)

/-- The pixels that are on in one row, as columns. -/
def lit (s : State) (row : Fin 32) : List Nat :=
  ((List.finRange 64).filter fun c => s.D.get row c).map Fin.val

/-- The answer is a next state of which `p` holds. -/
def yields (r : Result) (p : State → Bool) : Bool :=
  match r with
  | .next t => p t
  | _ => false

/-- One cycle of word `w` from `s` answers a next state of which `p` holds. -/
def runs (w : Nat) (s : State) (p : State → Bool) : Bool := yields (step (s.withFetchWord 16 w)) p

theorem next_of_yields {r : Result} {p : State → Bool} (h : yields r p = true) : ∃ t, r = .next t ∧ p t = true := by
  cases r with
  | next t => exact ⟨t, rfl, h⟩
  | fault f => cases h
  | refused q => cases h

/-- One cycle of word `w` from `s` answers this fault record. -/
def stops (w : Nat) (s : State) (r : FaultRecord) : Bool :=
  match step (s.withFetchWord 16 w) with
  | .fault f => f == .recorded r
  | _ => false

/-! ### Well-formedness: a no-op whose key its table maps is refused -/

theorem test_wf_refuses_nop0_of_cls : (Instr.nop0 0x0E0).wf = false := by decide
theorem test_wf_refuses_nop8_of_shl : (Instr.nop8 0x01E).wf = false := by decide
theorem test_wf_refuses_nopE_of_sknp : (Instr.nopE 0x0A1).wf = false := by decide
theorem test_wf_refuses_nopF_of_ldRegs : (Instr.nopF 0x065).wf = false := by decide
theorem test_wf_takes_nops :
    (Instr.nop0 0x123).wf ∧ (Instr.nop8 0x008).wf ∧ (Instr.nopE 0x09F).wf ∧ (Instr.nopF 0x066).wf := by decide

/-! ### Decoding -/

theorem test_decode_table0 :
    decode 0b0000000000000000#16 = .cls ∧ decode 0b0000111111111110#16 = .ret ∧
    decode 0b0000000100100011#16 = .nop0 0x123 := by decide

theorem test_decode_control :
    decode 0b0001001100000000#16 = .jp 0x300 ∧ decode 0b0010101010111100#16 = .call 0xABC ∧
    decode 0b0011101000000101#16 = .seImm 10 0x05 ∧ decode 0b0100000011111110#16 = .sneImm 0 0xFE ∧
    decode 0b0101000100100011#16 = .seReg 1 2 ∧ decode 0b1001111100000000#16 = .sneReg 15 0 ∧
    decode 0b1011111111110001#16 = .jpV0 0xFF1 := by decide

theorem test_decode_immediates :
    decode 0b0110111101000010#16 = .ldImm 15 0x42 ∧ decode 0b0111000000000001#16 = .addImm 0 0x01 ∧
    decode 0b1100010000001111#16 = .rnd 4 0x0F ∧ decode 0b1010001100000001#16 = .ldI 0x301 := by decide

theorem test_decode_table8 :
    decode 0b1000000100100000#16 = .ldReg 1 2 ∧ decode 0b1000000100100001#16 = .orReg 1 2 ∧
    decode 0b1000000100100010#16 = .andReg 1 2 ∧ decode 0b1000000100100011#16 = .xorReg 1 2 ∧
    decode 0b1000000100100100#16 = .addReg 1 2 ∧ decode 0b1000000100100101#16 = .sub 1 2 ∧
    decode 0b1000000111110110#16 = .shr 1 ∧ decode 0b1000000100100111#16 = .subn 1 2 ∧
    decode 0b1000000100001110#16 = .shl 1 ∧ decode 0b1000000000001111#16 = .nop8 0x00F := by decide

theorem test_decode_display_and_keys :
    decode 0b1101000100101111#16 = .drw 1 2 15 ∧ decode 0b1110000100001110#16 = .skp 1 ∧
    decode 0b1110000111110001#16 = .sknp 1 ∧ decode 0b1110000010011111#16 = .nopE 0x09F := by decide

theorem test_decode_tableF :
    decode 0b1111010100000111#16 = .ldVxDt 5 ∧ decode 0b1111010100001010#16 = .ldVxK 5 ∧
    decode 0b1111001100010101#16 = .ldDtVx 3 ∧ decode 0b1111001100011000#16 = .ldStVx 3 ∧
    decode 0b1111001000011110#16 = .addI 2 ∧ decode 0b1111000000101001#16 = .ldF 0 ∧
    decode 0b1111101000110011#16 = .ldB 10 ∧ decode 0b1111111101010101#16 = .stRegs 15 ∧
    decode 0b1111001001100101#16 = .ldRegs 2 ∧ decode 0b1111000011111111#16 = .nopF 0x0FF := by decide

theorem test_decode_bytes_high_first :
    decodeBytes [0x13, 0x00, 0xAA] = .ok (.jp 0x300, [0xAA]) ∧ decodeTableWord 16 0xF033 = some (.ldB 0) := by
  exact ⟨rfl, by decide⟩

theorem test_decode_truncated : decodeBytes [0x13] = .error .truncated := rfl

/-! ### Control transfer (95_test_vectors.md 2.1) -/

theorem test_jp : runs 0x1300 State.reset (fun t => t.pc == 0x300) := by decide
theorem test_call_sixteenth_push :
    runs 0x2ABC { State.reset with SP := 15 } (fun t => t.pc == 0xABC && t.SP == 16 && t.stack[15] == 0x202) := by decide
theorem test_call_overflow :
    stops 0x2ABC { State.reset with SP := 16 } ⟨.stackOverflow, 0x200, some 0x2ABC, none⟩ := by decide
theorem test_ret_keeps_slot :
    runs 0x00EE (slot 0 0x202 { State.reset with pc := 0x300, SP := 1 })
      (fun t => t.pc == 0x202 && t.SP == 0 && t.stack[0] == 0x202) := by decide
theorem test_ret_underflow : stops 0x00EE State.reset ⟨.stackUnderflow, 0x200, some 0x00EE, none⟩ := by decide
theorem test_seImm : runs 0x3005 (regs [(0, 5)]) (fun t => t.pc == 0x204) ∧
    runs 0x3006 (regs [(0, 5)]) (fun t => t.pc == 0x202) := by decide
theorem test_sneImm : runs 0x4005 (regs [(0, 5)]) (fun t => t.pc == 0x202) ∧
    runs 0x4006 (regs [(0, 5)]) (fun t => t.pc == 0x204) := by decide
theorem test_seReg : runs 0x5120 (regs [(1, 7), (2, 7)]) (fun t => t.pc == 0x204) ∧
    runs 0x5120 (regs [(1, 7), (2, 8)]) (fun t => t.pc == 0x202) := by decide
theorem test_sneReg : runs 0x9120 (regs [(1, 7), (2, 7)]) (fun t => t.pc == 0x202) ∧
    runs 0x9120 (regs [(1, 7), (2, 8)]) (fun t => t.pc == 0x204) := by decide
theorem test_jpV0_no_mask : runs 0xBFFF (regs [(0, 0xFF)]) (fun t => t.pc == 0x10FE) := by decide
theorem test_jpV0_only_v0 : runs 0xB123 (regs [(1, 0x55)]) (fun t => t.pc == 0x123) := by decide
theorem test_skip_at_top : runs 0x3000 { State.reset with pc := 0xFFE } (fun t => t.pc == 0x1002) := by decide
theorem test_fetch_out_of_range :
    stops 0 { State.reset with pc := 0xFFF } ⟨.memRangeFetch, 0xFFF, none, some 0xFFF⟩ := by decide

/-! ### Registers and arithmetic (2.2) -/

theorem test_ldImm_to_vf : runs 0x6F42 State.reset (fun t => t.reg 15 == 0x42) := by decide
theorem test_addImm_no_flag : runs 0x7001 (regs [(0, 0xFF)]) (fun t => t.reg 0 == 0 && t.reg 15 == 0) := by decide
theorem test_ldReg : runs 0x8010 (regs [(1, 0x99)]) (fun t => t.reg 0 == 0x99 && t.reg 1 == 0x99) := by decide
theorem test_or : runs 0x8011 (regs [(0, 0xF0), (1, 0x0F), (15, 0x55)]) (fun t => t.reg 0 == 0xFF && t.reg 15 == 0x55) := by
  decide
theorem test_and : runs 0x8012 (regs [(0, 0xF0), (1, 0x3C), (15, 0x55)]) (fun t => t.reg 0 == 0x30 && t.reg 15 == 0x55) := by
  decide
theorem test_xor : runs 0x8013 (regs [(0, 0xF0), (1, 0x3C), (15, 0x55)]) (fun t => t.reg 0 == 0xCC && t.reg 15 == 0x55) := by
  decide
theorem test_addReg_carry : runs 0x8014 (regs [(0, 0xFF), (1, 1)]) (fun t => t.reg 0 == 0 && t.reg 15 == 1) := by decide
theorem test_addReg_to_vf : runs 0x8F14 (regs [(15, 0x10), (1, 1)]) (fun t => t.reg 15 == 0x11) := by decide
theorem test_sub_borrow : runs 0x8015 (regs [(0, 3), (1, 5)]) (fun t => t.reg 0 == 0xFE && t.reg 15 == 0) := by decide
theorem test_sub_equal : runs 0x8015 (regs [(0, 7), (1, 7)]) (fun t => t.reg 0 == 0 && t.reg 15 == 0) := by decide
theorem test_subn : runs 0x8017 (regs [(0, 3), (1, 5)]) (fun t => t.reg 0 == 2 && t.reg 15 == 1) := by decide
theorem test_subn_borrow : runs 0x8017 (regs [(0, 5), (1, 3)]) (fun t => t.reg 0 == 0xFE && t.reg 15 == 0) := by decide
theorem test_shr : runs 0x8016 (regs [(0, 5), (1, 0xFF)]) (fun t => t.reg 0 == 2 && t.reg 15 == 1) := by decide
theorem test_shr_vf : runs 0x8F06 (regs [(15, 3)]) (fun t => t.reg 15 == 1) := by decide
theorem test_shl : runs 0x801E (regs [(0, 0x81)]) (fun t => t.reg 0 == 2 && t.reg 15 == 1) := by decide
theorem test_shl_no_carry : runs 0x801E (regs [(0, 0x7F), (15, 1)]) (fun t => t.reg 0 == 0xFE && t.reg 15 == 0) := by decide
/-- The random byte is whatever draw 0 is. -/
theorem test_rnd : ∃ t, step (State.reset.withFetchWord 16 0xC40F) = .next t ∧
    t.reg 4 = Config.drawByte 0 &&& 0x0F ∧ t.drawIndex = 1 := ⟨_, rfl, rfl, rfl⟩

/-! ### Index register and memory (2.3) -/

theorem test_ldI : runs 0xA300 State.reset (fun t => t.I == 0x300 && t.pc == 0x202) := by decide
theorem test_addI_wraps :
    runs 0xF21E ((regs [(2, 2), (15, 9)]).setI 0xFFFF) (fun t => t.I == 1 && t.reg 15 == 9) := by decide
theorem test_ldF_whole_byte : runs 0xF029 (regs [(0, 0xFF)]) (fun t => t.I == 0x54B) := by decide
theorem test_ldB : runs 0xF033 ((regs [(0, 157)]).setI 0x300)
    (fun t => t.M.read 0x300 == 1 && t.M.read 0x301 == 5 && t.M.read 0x302 == 7) := by decide
theorem test_ldB_range :
    stops 0xF033 ((regs [(0, 1)]).setI 0xFFE) ⟨.memRangeWrite, 0x200, some 0xF033, some 0x1000⟩ := by decide
theorem test_stRegs : runs 0xF155 ((regs [(0, 0x12), (1, 0x34), (2, 0x56)]).setI 0x300)
    (fun t => t.M.read 0x300 == 0x12 && t.M.read 0x301 == 0x34 && t.M.read 0x302 == 0 && t.I == 0x300) := by decide
theorem test_stRegs_range :
    stops 0xF055 (State.reset.setI 0xFFFF) ⟨.memRangeWrite, 0x200, some 0xF055, some 0xFFFF⟩ := by decide
theorem test_ldRegs : runs 0xF265 (poke [(0x300, 1), (0x301, 5), (0x302, 7), (0x303, 9)] (State.reset.setI 0x300))
    (fun t => t.reg 0 == 1 && t.reg 1 == 5 && t.reg 2 == 7 && t.reg 3 == 0) := by decide
theorem test_ldRegs_range :
    stops 0xF165 (State.reset.setI 0xFFF) ⟨.memRangeRead, 0x200, some 0xF165, some 0x1000⟩ := by decide

/-! ### Display (2.4) -/

theorem test_cls : runs 0x00E0 (light [(5, 5), (31, 63)] (regs [(15, 7)]))
    (fun t => lit t 5 == [] && lit t 31 == [] && t.reg 15 == 7) := by decide
theorem test_drw_right_edge_clips : runs 0xD011 (poke [(0x300, 0xFF)] ((regs [(0, 60), (1, 31)]).setI 0x300))
    (fun t => lit t 31 == [60, 61, 62, 63] && t.reg 15 == 0) := by decide
theorem test_drw_collision : runs 0xD011 (light [(0, 0), (0, 63)] (poke [(0x300, 0xF0)] ((regs [(0, 62)]).setI 0x300)))
    (fun t => lit t 0 == [0, 62] && t.reg 15 == 1) := by decide

/-! ### Keys and timers (2.5) -/

theorem test_skp : runs 0xE19E (press [7] (regs [(1, 7)])) (fun t => t.pc == 0x204) ∧
    runs 0xE19E (regs [(1, 7)]) (fun t => t.pc == 0x202) := by decide
theorem test_skp_range :
    stops 0xE19E (press [0] (regs [(1, 0x10)])) ⟨.keyRange, 0x200, some 0xE19E, some 0x10⟩ := by decide
theorem test_sknp : runs 0xE1A1 (regs [(1, 7)]) (fun t => t.pc == 0x204) ∧
    runs 0xE1A1 (press [7] (regs [(1, 7)])) (fun t => t.pc == 0x202) := by decide
theorem test_sknp_range :
    stops 0xE1A1 (regs [(1, 0xFF)]) ⟨.keyRange, 0x200, some 0xE1A1, some 0xFF⟩ := by decide
theorem test_ldVxDt_before_tick : runs 0xF507 (State.reset.setDT 5) (fun t => t.reg 5 == 5 && t.DT == 4) := by decide
theorem test_ldDtVx_then_tick : runs 0xF315 (regs [(3, 3)]) (fun t => t.DT == 2) := by decide
theorem test_ldStVx_then_tick : runs 0xF318 ((regs [(3, 0xFF)]).setST 2) (fun t => t.ST == 0xFE) := by decide
theorem test_ldVxK_waits : runs 0xF50A (State.reset.setDT 3) (fun t => t.pc == 0x200 && t.DT == 2) := by decide
theorem test_ldVxK_highest : runs 0xF50A (press [3, 7] State.reset) (fun t => t.reg 5 == 7 && t.pc == 0x202) := by decide

/-! ### The no-op handler and the host's side (2.6, 3) -/

theorem test_nops : ∀ w ∈ [0x0123, 0x8008, 0xE09F, 0xF066],
    runs w ((regs [(0, 3)]).setDT 2) (fun t => t.pc == 0x202 && t.DT == 1 && t.reg 0 == 3) := by decide
theorem test_image_too_large : resetWith (List.replicate 3585 0) = .refused (.imageTooLarge 3585) := by
  rw [resetWith, loadImage, if_neg (by rw [List.length_replicate]; decide), List.length_replicate]
theorem test_load : yields (resetWith [0x12, 0x00]) (fun s => s.word == 0x1200 && s.isIdle) := by decide

/-! ### Witnesses: encoding and the cycle -/

theorem witness_DecodeOfEncodeIsTheInstruction : (Instr.drw 15 0 15).wf = true ∧ (Instr.nopF 0x066).wf = true := by decide

theorem witness_IgnoredBitsNeverChangeTheResult :
    ∀ p ∈ [(0x8016#16, 0x80F6#16), (0x5120#16, 0x512F#16), (0x0008#16, 0x0FF8#16), (0x8008#16, 0x8FF8#16),
        (0xE000#16, 0xEFF0#16), (0xF066#16, 0xFF66#16)],
      p.1 ≠ p.2 ∧ p.1 &&& (decode p.1).named = p.2 &&& (decode p.1).named := by
  intro p hp
  simp only [List.mem_cons, List.not_mem_nil, or_false] at hp
  rcases hp with rfl | rfl | rfl | rfl | rfl | rfl <;> decide

theorem witness_EveryWordDecodesByItsRow :
    decode 0x8018#16 ∈ [Instr.nop0 0x018, .nop8 0x018, .nopE 0x018, .nopF 0x018] := by
  have h : decode 0x8018#16 = .nop8 0x018 := by decide
  simp [h]

theorem witness_FetchWordIsFetched : ∃ s : State, s.M.wf = true ∧ s.pc.toNat = 0xFFE :=
  ⟨{ State.reset with pc := 0xFFE }, by decide⟩

/-- A recorded fault; a pc just out of range; the last pc in range with an instruction that goes on and with one
that raises. -/
theorem witness_StepRunsTheDecodedInstruction :
    (∃ (s : State) (r : FaultRecord), s.fault = some r) ∧
    (∃ s : State, s.fault = none ∧ s.pc.toNat = 0xFFF) ∧
    (∃ (s : State) (i : Instr) (t : State), s.fault = none ∧ s.pc.toNat = 0xFFE ∧
      decodeBytes [s.M.read s.pc.toNat, s.M.read (s.pc.toNat + 1)] = .ok (i, []) ∧
      exec i { s with pc := s.pc + 2 } = .next t) ∧
    (∃ (s : State) (i : Instr), s.fault = none ∧ s.pc.toNat = 0xFFE ∧
      decodeBytes [s.M.read s.pc.toNat, s.M.read (s.pc.toNat + 1)] = .ok (i, []) ∧
      exec i { s with pc := s.pc + 2 } = .fault (.raised .stackUnderflow none)) :=
  ⟨⟨State.reset.takeFault ⟨.keyRange, 0, none, none⟩, _, rfl⟩, ⟨{ State.reset with pc := 0xFFF }, rfl, rfl⟩,
    ⟨{ State.reset with pc := 0xFFE }, .cls, _, rfl, rfl, rfl, rfl⟩,
    ⟨{ State.reset with pc := 0xFFE, M := [(0xFFF, 0xEE)] }, .ret, rfl, rfl, rfl, rfl⟩⟩

theorem witness_FaultsArePreciseAndSticky :
    (∃ (s : State) (f : Fault), s.fault = none ∧ s.pc.toNat = 0xFFF ∧ step s = .fault f) ∧
    (∃ (s : State) (f : Fault), s.fault = none ∧ s.pc.toNat ≤ 0xFFE ∧ step s = .fault f) :=
  ⟨⟨{ State.reset with pc := 0xFFF }, _, rfl, rfl, rfl⟩, ⟨State.reset.withFetchWord 16 0x00EE, _, rfl, by decide, rfl⟩⟩

/-- One state for each row of the statement, at the first value that faults. -/
theorem witness_OnlyTheTabledInstructionsFault :
    exec (.call 0) { State.reset with SP := 16 } = .fault (.raised .stackOverflow none) ∧
    exec .ret State.reset = .fault (.raised .stackUnderflow none) ∧
    exec (.skp 0) (regs [(0, 16)]) = .fault (.raised .keyRange (some 16)) ∧
    exec (.sknp 0) (regs [(0, 16)]) = .fault (.raised .keyRange (some 16)) ∧
    exec (.drw 0 0 2) (State.reset.setI 0xFFF) = .fault (.raised .memRangeRead (some 0x1000)) ∧
    exec (.ldRegs 1) (State.reset.setI 0xFFF) = .fault (.raised .memRangeRead (some 0x1000)) ∧
    exec (.stRegs 1) (State.reset.setI 0xFFF) = .fault (.raised .memRangeWrite (some 0x1000)) ∧
    exec (.ldB 0) (State.reset.setI 0xFFE) = .fault (.raised .memRangeWrite (some 0x1000)) :=
  ⟨rfl, rfl, rfl, rfl, rfl, rfl, rfl, rfl⟩

/-- Each row of the statement at a state that steps: a skip taken and not taken, RET from depth 1, the waiting
instruction waiting and not. -/
theorem witness_PcAfterEveryCycle :
    (∀ w ∈ [0x1FFF, 0x2FFF, 0xBFFF, 0x3000, 0x3001, 0x4000, 0x4001, 0x5120, 0x9120, 0xE09E, 0xE0A1, 0xF00A, 0x0000],
      ∃ t, step ((regs [(2, 1)]).withFetchWord 16 w) = .next t) ∧
    (∃ t, step ({ State.reset with SP := 1 }.withFetchWord 16 0x00EE) = .next t) ∧
    (∀ w ∈ [0xE09E, 0xE0A1, 0xF00A], ∃ t, step ((press [0] State.reset).withFetchWord 16 w) = .next t) := by
  have h : (∀ w ∈ [0x1FFF, 0x2FFF, 0xBFFF, 0x3000, 0x3001, 0x4000, 0x4001, 0x5120, 0x9120, 0xE09E, 0xE0A1, 0xF00A, 0x0000],
      runs w (regs [(2, 1)]) fun _ => true) ∧ runs 0x00EE { State.reset with SP := 1 } (fun _ => true) ∧
      ∀ w ∈ [0xE09E, 0xE0A1, 0xF00A], runs w (press [0] State.reset) fun _ => true := by decide
  exact ⟨fun w hw => (next_of_yields (h.1 w hw)).imp fun _ h => h.1, (next_of_yields h.2.1).imp fun _ h => h.1,
    fun w hw => (next_of_yields (h.2.2 w hw)).imp fun _ h => h.1⟩

/-! ### Witnesses: reset, runs, timers -/

theorem witness_ResetLoadsTheImage :
    (∃ image : List Byte, image.length = 3584) ∧ (∃ image : List Byte, image.length = 3585) :=
  ⟨⟨List.replicate 3584 0, List.length_replicate⟩, ⟨List.replicate 3585 0, List.length_replicate⟩⟩

/-- RET to the largest address a slot may hold. -/
theorem witness_StepKeepsTheInvariant : ∃ s t : State, s.Inv ∧ step s = .next t ∧ t.pc = 0x1000 :=
  ⟨(slot 0 0x1000 { State.reset with SP := 1 }).withFetchWord 16 0x00EE, _,
    ⟨by decide, by decide, by decide⟩, rfl, rfl⟩

theorem witness_EveryReachableStateKeepsTheInvariant : ∃ (image : List Byte) (keys : List Keys) (s t : State),
    resetWith image = .next s ∧ keys.length = 2 ∧ runKeys keys s = .next t :=
  ⟨[0xF5, 0x0A, 0x12, 0x02], [State.reset.key, Vector.replicate 16 true], _, _, rfl, rfl, rfl⟩

theorem witness_TimersTickAtTheEndOfEveryCycle :
    (∃ s t : State, step s = .next t ∧ ∀ x, decode s.word ≠ .ldDtVx x ∧ decode s.word ≠ .ldStVx x) ∧
    (∃ (s t : State) (x : RegIdx), step s = .next t ∧ decode s.word = .ldDtVx x) ∧
    (∃ (s t : State) (x : RegIdx), step s = .next t ∧ decode s.word = .ldStVx x) :=
  ⟨⟨State.reset, _, rfl, by decide⟩, ⟨State.reset.withFetchWord 16 0xF315, _, 3, rfl, by decide⟩,
    ⟨State.reset.withFetchWord 16 0xF318, _, 3, rfl, by decide⟩⟩

/-- Two cycles that write neither timer, from timers that end at 0 and above it. -/
theorem witness_TimersAfterManyCycles : ∃ (keys : List Keys) (s t : State), keys.length = 2 ∧
    runKeys keys s = .next t ∧ s.DT = 1 ∧ s.ST = 9 ∧
    (∀ n u, n < keys.length → runKeys (keys.take n) s = .next u →
      ∀ x, decode u.word ≠ .ldDtVx x ∧ decode u.word ≠ .ldStVx x) := by
  refine ⟨[State.reset.key, State.reset.key], { State.reset with DT := 1, ST := 9 }, _, rfl, rfl, rfl, rfl, ?_⟩
  intro n u hn hu
  match n, hn with
  | 0, _ => cases hu; decide
  | 1, _ => cases hu; decide

theorem witness_TimerWrittenThenReadNextCycle : ∃ (s t u : State) (x y : RegIdx), step s = .next t ∧
    decode s.word = .ldDtVx x ∧ (s.reg x).toNat = 1 ∧ step t = .next u ∧ decode t.word = .ldVxDt y :=
  ⟨poke [(0x200, 0xF3), (0x201, 0x15), (0x202, 0xF4), (0x203, 0x07)] (regs [(3, 1)]), _, _, 3, 4, rfl, by decide, by decide,
    rfl, by decide⟩

theorem witness_IdleStateChangesOnlyTheTimers :
    (∃ s : State, s.isIdle = true) ∧ ∃ s : State, s.pc = 0xFFE ∧ s.isIdle = true :=
  ⟨⟨State.reset.withFetchWord 16 0x1200, by decide⟩, ⟨{ State.reset with pc := 0xFFE }.withFetchWord 16 0x1FFE, by decide⟩⟩

theorem witness_WaitForKeyWaits :
    (∃ (s : State) (x : RegIdx), s.fault = none ∧ s.pc.toNat = 0xFFE ∧ decode s.word = .ldVxK x) ∧
    (∃ (keys : Keys) (k : KeyIdx), keys[k] = true ∧ ∀ j : KeyIdx, keys[j] = true → j ≤ k) :=
  ⟨⟨{ State.reset with pc := 0xFFE }.withFetchWord 16 0xF50A, 5, by decide⟩, ⟨(press [3, 7] State.reset).key, 7, by decide⟩⟩

/-! ### Witnesses: who writes what -/

theorem witness_IndexRegisterWriters : ∀ w ∈ [0xAFFF, 0xF21E, 0xF029, 0x0000],
    ∃ t, step (((regs [(2, 2)]).setI 0xFFFF).withFetchWord 16 w) = .next t := by
  have h : ∀ w ∈ [0xAFFF, 0xF21E, 0xF029, 0x0000], runs w ((regs [(2, 2)]).setI 0xFFFF) fun _ => true := by decide
  exact fun w hw => (next_of_yields (h w hw)).imp fun _ h => h.1

/-- Store-bcd and store-registers at the last address they may write, a store into the font, and no store. -/
theorem witness_MemoryWriters :
    (∃ s t : State, s.M.wf = true ∧ step s = .next t ∧ decode s.word = .ldB 1 ∧ s.addr 2 = 0xFFF) ∧
    (∃ (s t : State) (k : RegIdx), s.M.wf = true ∧ step s = .next t ∧ decode s.word = .stRegs 1 ∧ k ≤ 1 ∧
      s.addr k.val = 0xFFF) ∧
    (∃ s t : State, s.M.wf = true ∧ step s = .next t ∧ decode s.word = .stRegs 1 ∧ s.addr 0 = 0x50) ∧
    (∃ s t : State, s.M.wf = true ∧ step s = .next t ∧ decode s.word = .cls) :=
  ⟨⟨((regs [(1, 7)]).setI 0xFFD).withFetchWord 16 0xF133, _, by decide, rfl, by decide⟩,
    ⟨((regs [(1, 7)]).setI 0xFFE).withFetchWord 16 0xF155, _, 1, by decide, rfl, by decide⟩,
    ⟨(State.reset.setI 0x50).withFetchWord 16 0xF155, _, by decide, rfl, by decide⟩, ⟨State.reset, _, rfl, rfl, by decide⟩⟩

theorem witness_StackWriters :
    (∃ s t : State, step s = .next t ∧ decode s.word = .call 0x300 ∧ s.SP = 15) ∧
    (∃ s t : State, step s = .next t ∧ decode s.word = .ret ∧ s.SP = 1) ∧
    (∃ s t : State, step s = .next t ∧ t.SP = s.SP) :=
  ⟨⟨{ State.reset with SP := 15 }.withFetchWord 16 0x2300, _, rfl, by decide⟩,
    ⟨{ State.reset with SP := 1 }.withFetchWord 16 0x00EE, _, rfl, by decide⟩, ⟨State.reset, _, rfl, rfl⟩⟩

theorem witness_DisplayKeyFaultAndDrawWriters :
    (∃ s t : State, step s = .next t ∧ t.D ≠ s.D) ∧
    (∃ s t : State, step s = .next t ∧ ∃ x kk, decode s.word = .rnd x kk) ∧
    (∃ s t : State, step s = .next t ∧ ∀ x kk, decode s.word ≠ .rnd x kk) :=
  ⟨⟨light [(0, 0)] State.reset, _, rfl, by decide⟩,
    ⟨State.reset.withFetchWord 16 0xC40F, _, rfl, 4, 0x0F, by decide⟩, ⟨State.reset, _, rfl, by decide⟩⟩

/-- Each kind of instruction that may change VF, changing it. -/
theorem witness_FlagWriters :
    (∀ i ∈ [Instr.addReg 0 0, .sub 0 1, .shl 0, .ldImm VF 1, .addImm VF 1, .ldReg VF 0, .orReg VF 0, .xorReg VF 0,
        .ldVxK VF, .ldVxDt VF],
      ∃ t, exec i { press [3] (regs [(0, 0x80)]) with DT := 7 } = .next t ∧ t.reg VF ≠ 0) ∧
    (∀ i ∈ [Instr.subn 0 1, .shr 0, .andReg VF 0, .drw 0 1 1, .ldRegs VF],
      ∃ t, exec i ((regs [(0, 0x80), (15, 7)]).setI 0x300) = .next t ∧ t.reg VF ≠ 7) := by
  have h : (∀ i ∈ [Instr.addReg 0 0, .sub 0 1, .shl 0, .ldImm VF 1, .addImm VF 1, .ldReg VF 0, .orReg VF 0, .xorReg VF 0,
        .ldVxK VF, .ldVxDt VF], yields (exec i { press [3] (regs [(0, 0x80)]) with DT := 7 }) fun t => t.reg VF ≠ 0) ∧
      (∀ i ∈ [Instr.subn 0 1, .shr 0, .andReg VF 0, .drw 0 1 1, .ldRegs VF],
        yields (exec i ((regs [(0, 0x80), (15, 7)]).setI 0x300)) fun t => t.reg VF ≠ 7) := by decide
  exact ⟨fun i hi => (next_of_yields (h.1 i hi)).imp fun _ h => ⟨h.1, of_decide_eq_true h.2⟩,
    fun i hi => (next_of_yields (h.2 i hi)).imp fun _ h => ⟨h.1, of_decide_eq_true h.2⟩⟩

/-! ### Witnesses: results -/

theorem witness_CallResult : (∃ s : State, s.SP.val = 15) ∧ ∃ s : State, s.SP.val = 16 :=
  ⟨⟨{ State.reset with SP := 15 }, rfl⟩, ⟨{ State.reset with SP := 16 }, rfl⟩⟩

theorem witness_ReturnResult :
    (∃ s : State, s.SP.val = 1) ∧ (∃ s : State, s.SP.val = 16) ∧ ∃ s : State, s.SP.val = 0 :=
  ⟨⟨{ State.reset with SP := 1 }, rfl⟩, ⟨{ State.reset with SP := 16 }, rfl⟩, ⟨State.reset, rfl⟩⟩

theorem witness_ReturnUndoesCall : ∃ (s t u : State) (nnn : Addr12), exec (.call nnn) s = .next t ∧
    u.SP = t.SP ∧ u.stack = t.stack :=
  ⟨{ State.reset with SP := 15 }, _, _, 0x300, rfl, rfl, rfl⟩

theorem witness_SkipResults : ∃ (s : State) (x y z : RegIdx) (kk : Byte),
    s.reg x = kk ∧ s.reg y ≠ kk ∧ s.reg x = s.reg z ∧ s.reg x ≠ s.reg y :=
  ⟨regs [(0, 5), (1, 5), (2, 6)], 0, 2, 1, 5, by decide⟩

/-- Sums of 255 and 256, with a destination other than VF. -/
theorem witness_AddRegistersResult : ∃ (s : State) (x y z : RegIdx), x ≠ VF ∧
    (s.reg x).toNat + (s.reg y).toNat = 255 ∧ (s.reg x).toNat + (s.reg z).toNat = 256 :=
  ⟨regs [(0, 0x80), (1, 0x7F), (2, 0x80)], 0, 1, 2, by decide⟩

theorem witness_SubtractResults : ∃ (s : State) (x y z : RegIdx), x ≠ VF ∧ s.reg x = s.reg y ∧
    (s.reg z).toNat = (s.reg x).toNat + 1 :=
  ⟨regs [(0, 7), (1, 7), (2, 8)], 0, 1, 2, by decide⟩

theorem witness_ShiftResults : ∃ (s : State) (x : RegIdx), x ≠ VF ∧ s.reg x = 0x81 := ⟨regs [(0, 0x81)], 0, by decide⟩

theorem witness_StoreBcdResult :
    (∃ s : State, s.M.wf = true ∧ s.I.toNat + 2 = 0xFFF) ∧ ∃ s : State, s.M.wf = true ∧ s.I.toNat + 2 = 0x1000 :=
  ⟨⟨State.reset.setI 0xFFD, by decide⟩, ⟨State.reset.setI 0xFFE, by decide⟩⟩

theorem witness_StoreRegistersResult :
    (∃ (s : State) (x k : RegIdx), s.M.wf = true ∧ s.I.toNat + x.val = 0xFFF ∧ k ≤ x) ∧
    ∃ (s : State) (x : RegIdx), s.M.wf = true ∧ s.I.toNat + x.val = 0x1000 :=
  ⟨⟨State.reset.setI 0xFF0, 15, 15, by decide⟩, ⟨State.reset.setI 0xFF1, 15, by decide⟩⟩

theorem witness_LoadRegistersResult :
    (∃ (s : State) (x k : RegIdx), s.I.toNat + x.val = 0xFFF ∧ k ≤ x) ∧
    ∃ (s : State) (x : RegIdx), s.I.toNat + x.val = 0x1000 :=
  ⟨⟨State.reset.setI 0xFFF, 0, 0, by decide⟩, ⟨State.reset.setI 0xFFF, 1, by decide⟩⟩

theorem witness_LoadUndoesStore : ∃ (s t u : State) (x : RegIdx), s.M.wf = true ∧ exec (.stRegs x) s = .next t ∧
    u.M = t.M ∧ u.I = s.I ∧ u.reg 0 ≠ s.reg 0 :=
  ⟨(regs [(0, 1)]).setI 0xFF0, _, _, 15, by decide, rfl,
    (rfl : ({ State.reset with M := [(0xFF0, 1)], I := 0xFF0 } : State).M = _), rfl, by decide⟩

/-- Stores that end in the next word and one that begins in it; no store; the last pc whose next fetch is in range;
and the second clause. -/
theorem witness_NextFetchSeesTheStore :
    (∃ s t : State, s.M.wf = true ∧ step s = .next t ∧ t.pc.toNat ≤ 0xFFE ∧ decode s.word = .ldB 0 ∧ s.addr 2 = t.pc.toNat) ∧
    (∃ s t : State, s.M.wf = true ∧ step s = .next t ∧ t.pc.toNat ≤ 0xFFE ∧ decode s.word = .stRegs 1 ∧
      s.addr 0 = t.pc.toNat + 1) ∧
    (∃ s t : State, s.M.wf = true ∧ step s = .next t ∧ t.pc.toNat = 0xFFE ∧ decode s.word = .cls) ∧
    (∃ (s t u : State) (x : RegIdx), s.M.wf = true ∧ exec (.stRegs x) s = .next t ∧ x.val = 1 ∧ u.M = t.M ∧ u.pc = s.I) :=
  ⟨⟨((regs [(0, 157)]).setI 0x200).withFetchWord 16 0xF033, _, by decide, rfl, by decide⟩,
    ⟨((regs [(0, 0x12), (1, 0x10)]).setI 0x203).withFetchWord 16 0xF155, _, by decide, rfl, by decide⟩,
    ⟨{ State.reset with pc := 0xFFC }, _, by decide, rfl, by decide⟩,
    ⟨State.reset.setI 0x300, _, State.reset.setPc 0x300, 1, by decide, rfl, rfl, rfl, rfl⟩⟩

theorem witness_FontAddressPointsAtTheGlyph : ∃ (s : State) (x : RegIdx),
    (∀ k, k < 80 → s.M.read (0x50 + k) = Config.font.getD k 0) ∧ (s.reg x).toNat = 15 :=
  ⟨regs [(0, 15)], 0, by decide, by decide⟩

theorem witness_CanonicalMemoryIsUnique : ∃ m m' : Memory, m.wf = true ∧ m'.wf = true ∧ m ≠ [] ∧
    ∀ a, m.read a = m'.read a :=
  ⟨[(0x50, 0x00), (0x300, 0x01)], [(0x50, 0x00), (0x300, 0x01)], by decide, by decide, by decide, fun _ => rfl⟩

/-! ### Witnesses: display, keys, what a program cannot see -/

/-- n = 0 with I out of range; the last byte of memory; one byte past it; a collision and none. -/
theorem witness_DrawSpriteResult : Config.spriteEdge = .clip ∧
    (∃ (s : State) (n : Fin 16), n.val = 0 ∧ s.I.toNat = 0x5000) ∧
    (∃ (s : State) (n : Fin 16), s.I.toNat + n.val - 1 = 0xFFF ∧ n.val = 1) ∧
    (∃ (s : State) (n : Fin 16), 0 < n.val ∧ s.I.toNat + n.val - 1 = 0x1000) ∧
    (∃ s t : State, exec (.drw 0 1 1) s = .next t ∧
      ∃ (row : Fin 32) (col : Fin 64), s.D[row][col] = true ∧ t.D[row][col] = false) ∧
    (∃ s t : State, exec (.drw 0 1 0) s = .next t ∧
      ∀ (row : Fin 32) (col : Fin 64), s.D[row][col] = true → t.D[row][col] = true) :=
  ⟨rfl, ⟨State.reset.setI 0x5000, 0, by decide⟩, ⟨State.reset.setI 0xFFF, 1, by decide⟩,
    ⟨State.reset.setI 0xFFF, 2, by decide⟩,
    ⟨light [(0, 0)] (State.reset.setI 0x50), _, rfl, 0, 0, by decide⟩,
    ⟨State.reset, _, rfl, fun _ _ h => h⟩⟩

theorem witness_DrawingTwiceRestoresTheDisplay :
    (∃ (d : Display) (sprite : List Byte), sprite.length = 15 ∧ ∀ (row : Fin 32) (col : Fin 64), d[row][col] = false) ∧
    (0 : RegIdx) ≠ VF ∧ (1 : RegIdx) ≠ VF ∧
    (∃ s t u : State, exec (.drw 0 1 1) s = .next t ∧ exec (.drw 0 1 1) t = .next u ∧
      (∀ (row : Fin 32) (col : Fin 64), s.D[row][col] = false) ∧ t.D ≠ s.D) ∧
    (∃ s t u : State, exec (.drw 0 1 0) s = .next t ∧ exec (.drw 0 1 0) t = .next u ∧
      (∀ (row : Fin 32) (col : Fin 64), s.D[row][col] = false) ∧ t.D = s.D) := by
  have h : yields (exec (.drw 0 1 1) (State.reset.setI 0x50)) fun t => t.D.get 0 0 && t.I == 0x50 := by decide
  obtain ⟨t, ht, hp⟩ := next_of_yields h
  obtain ⟨hon, hI⟩ := Bool.and_eq_true_iff.mp hp
  have hI : t.I.toNat = 0x50 := by rw [eq_of_beq hI]; rfl
  obtain ⟨u, hu⟩ : ∃ u, exec (.drw 0 1 1) t = .next u := by
    rcases t.withSpan_cases .memRangeRead 1
      (.next ((t.setD (t.drawing 0 1 1).display).setFlag (collisionFlag (t.drawing 0 1 1).hit))) with h | h
    · exact ⟨_, h.2⟩
    · omega
  have hblank : ∀ (row : Fin 32) (col : Fin 64), State.reset.D[row][col] = false := by simp [State.reset]
  refine ⟨⟨State.reset.D, List.replicate 15 0xFF, rfl, hblank⟩, by decide, by decide,
    ⟨State.reset.setI 0x50, t, u, ht, hu, hblank, fun e => ?_⟩,
    ⟨State.reset, _, _, rfl, rfl, hblank, rfl⟩⟩
  rw [e] at hon
  exact absurd hon (by decide)

theorem witness_KeySkipResults :
    (∃ (s : State) (x : RegIdx) (k : KeyIdx), k.val = (s.reg x).toNat ∧ k = 15 ∧ s.key[k] = true) ∧
    (∃ (s : State) (x : RegIdx) (k : KeyIdx), k.val = (s.reg x).toNat ∧ k = 15 ∧ s.key[k] = false) ∧
    (∃ (s : State) (x : RegIdx), (s.reg x).toNat = 16) :=
  ⟨⟨press [15] (regs [(0, 15)]), 0, 15, by decide⟩, ⟨regs [(0, 15)], 0, 15, by decide⟩, ⟨regs [(0, 16)], 0, by decide⟩⟩

theorem witness_WaitForKeyResult : (∃ s : State, ∀ k : KeyIdx, s.key[k] = false) ∧
    ∃ (s : State) (k : KeyIdx), s.key[k] = true ∧ ∀ j : KeyIdx, s.key[j] = true → j ≤ k :=
  ⟨⟨State.reset, by decide⟩, ⟨press [3, 7] State.reset, 7, by decide⟩⟩

/-- An unmapped word of each table, at the last pc in range. -/
theorem witness_NoOpIsInert : ∀ w ∈ [0x0123#16, 0x8008#16, 0xE09F#16, 0xF066#16],
    ∃ s : State, s.fault = none ∧ s.pc.toNat = 0xFFE ∧ s.word = w ∧
    (cat s.word = 0x0 ∧ sub4 s.word ∉ [0x0#4, 0xE#4] ∨
      cat s.word = 0x8 ∧ sub4 s.word ∉ [0x0#4, 0x1#4, 0x2#4, 0x3#4, 0x4#4, 0x5#4, 0x6#4, 0x7#4, 0xE#4] ∨
      cat s.word = 0xE ∧ sub4 s.word ∉ [0xE#4, 0x1#4] ∨
      cat s.word = 0xF ∧ sub8 s.word ∉ [0x07#8, 0x0A#8, 0x15#8, 0x18#8, 0x1E#8, 0x29#8, 0x33#8, 0x55#8, 0x65#8]) := by
  intro w hw
  refine ⟨{ State.reset with pc := 0xFFE }.withFetchWord 16 w.toNat, ?_⟩
  simp only [List.mem_cons, List.not_mem_nil, or_false] at hw
  rcases hw with rfl | rfl | rfl | rfl <;> decide

theorem witness_SoundTimerIsNeverRead : (∃ s t : State, step s = .next t) ∧ ∃ (s : State) (f : Fault), step s = .fault f :=
  ⟨⟨State.reset, _, rfl⟩, ⟨{ State.reset with pc := 0xFFF }, _, rfl⟩⟩

theorem witness_OnlyKeyInstructionsReadTheKeys :
    (∃ s t : State, (∀ x, decode s.word ≠ .skp x ∧ decode s.word ≠ .sknp x ∧ decode s.word ≠ .ldVxK x) ∧ step s = .next t) ∧
    (∃ (s : State) (f : Fault),
      (∀ x, decode s.word ≠ .skp x ∧ decode s.word ≠ .sknp x ∧ decode s.word ≠ .ldVxK x) ∧ step s = .fault f) :=
  ⟨⟨State.reset, _, by decide, rfl⟩, ⟨State.reset.withFetchWord 16 0x00EE, _, by decide, rfl⟩⟩

/-- Two states that differ in the slot at SP only: a run that goes on, and one that stops. -/
theorem witness_SlotsAboveSPAreNeverObserved :
    (∃ (keys : List Keys) (s s' t : State), s' = { s with stack := s'.stack } ∧
      (∀ j : Fin 16, j.val < s.SP.val → s'.stack[j] = s.stack[j]) ∧ s' ≠ s ∧ keys.length = 1 ∧ s.SP = 1 ∧
      runKeys keys s = .next t) ∧
    (∃ (keys : List Keys) (s s' : State) (f : Fault), s' = { s with stack := s'.stack } ∧
      (∀ j : Fin 16, j.val < s.SP.val → s'.stack[j] = s.stack[j]) ∧ s' ≠ s ∧ keys.length = 1 ∧ runKeys keys s = .fault f) :=
  ⟨⟨[State.reset.key], { State.reset with SP := 1 }.withFetchWord 16 0x00EE,
      (slot 1 7 { State.reset with SP := 1 }).withFetchWord 16 0x00EE, _, rfl, by decide,
      by decide, rfl, rfl, rfl⟩,
    ⟨[State.reset.key], State.reset.withFetchWord 16 0x00EE,
      (slot 0 7 State.reset).withFetchWord 16 0x00EE, _, rfl, by decide, by decide, rfl, rfl⟩⟩

end Sys2Proof.Tests
end

section
/-! SUPPORT. What an instruction that completes does to the display, the keys, the fault record and the random source. -/

namespace Sys2Proof.Machine

variable {s t : State}

/-! ### The state that an instruction with guards leaves when it completes -/

theorem State.withSpan_next {c : Cause} {n : Nat} {u : State} (h : s.withSpan c n (.next u) = .next t) : t = u := by
  rcases s.withSpan_cases c n (.next u) with ⟨-, e⟩ | ⟨-, -, e⟩ <;> rw [e] at h <;> cases h
  rfl

theorem State.withKey_next {x : RegIdx} {g : KeyIdx → State} (h : s.withKey x (fun k => .next (g k)) = .next t) :
    ∃ k, t = g k := by
  rcases s.withKey_cases x (fun k => .next (g k)) with ⟨hk, e⟩ | ⟨-, e⟩ <;> rw [e] at h <;> cases h
  exact ⟨⟨_, hk⟩, rfl⟩

/-- A RET that completes writes SP and the pc only (R100, D26). -/
theorem execRet_next (h : execRet s = .next t) : t = { s with SP := t.SP, pc := t.pc } := by
  unfold execRet at h
  rcases s.pop_spec with ⟨_, _, e⟩ | ⟨-, e⟩ <;> rw [e] at h <;> cases h
  rfl

/-- A CALL that completes writes the stack, SP and the pc only (R102). -/
theorem execCall_next {nnn : Addr12} (h : execCall nnn s = .next t) :
    t = { s with stack := t.stack, SP := t.SP, pc := t.pc } := by
  unfold execCall at h
  rcases s.push_spec s.pc with ⟨_, e⟩ | ⟨-, e⟩ <;> rw [e] at h <;> cases h
  rfl

/-- SKP and SKNP complete with a skip or without one (R180, R181). -/
theorem execSkp_next {x : RegIdx} (h : execSkp x s = .next t) : ∃ c, t = s.skipIf c :=
  have ⟨_, e⟩ := State.withKey_next h
  ⟨_, e⟩

theorem execSknp_next {x : RegIdx} (h : execSknp x s = .next t) : ∃ c, t = s.skipIf c :=
  have ⟨_, e⟩ := State.withKey_next h
  ⟨_, e⟩

/-- A wait for a key that completes steps back or delivers a key (R185). -/
theorem execLdVxK_next {x : RegIdx} (h : execLdVxK x s = .next t) : t = s.rewindPc ∨ ∃ b, t = s.setReg x b := by
  unfold execLdVxK at h
  rcases s.scanKeys_cases with ⟨e, -⟩ | ⟨k, e, -⟩ <;> rw [e] at h <;> cases h
  · exact .inl rfl
  · exact .inr ⟨_, rfl⟩

/-! ### The peripherals -/

/-- The display, the keys, the fault record and the random source of `t` are those of `s`. -/
structure SamePeripherals (s t : State) : Prop where
  D : t.D = s.D
  key : t.key = s.key
  fault : t.fault = s.fault
  drawIndex : t.drawIndex = s.drawIndex

theorem samePeripherals_skipIf (c : Bool) : SamePeripherals s (s.skipIf c) :=
  ⟨s.skipIf_D c, s.skipIf_key c, s.skipIf_fault c, s.skipIf_drawIndex c⟩

theorem samePeripherals_loadRegs (n : Nat) : SamePeripherals s (s.loadRegs n) :=
  ⟨s.loadRegs_D n, s.loadRegs_key n, s.loadRegs_fault n, s.loadRegs_drawIndex n⟩

/-- An instruction that completes touches no peripheral, or it is CLS, DRW or RND and leaves a known state
(R13, R29, R30, R32). -/
theorem exec_next_peripherals {i : Instr} (h : exec i s = .next t) :
    ((∀ x kk, i ≠ .rnd x kk) ∧ SamePeripherals s t) ∨
    (i = .cls ∧ t = s.setD Display.clear) ∨
    (∃ x y n, i = .drw x y n ∧
      t = (s.setD (s.drawing x y n).display).setFlag (collisionFlag (s.drawing x y n).hit)) ∨
    (∃ x kk, i = .rnd x kk ∧ t = s.drawn.setReg x (s.draw8 &&& kk)) := by
  cases i with
  | cls => cases h; exact .inr (.inl ⟨rfl, rfl⟩)
  | drw x y n => obtain rfl := State.withSpan_next h; exact .inr (.inr (.inl ⟨x, y, n, rfl, rfl⟩))
  | rnd x kk => cases h; exact .inr (.inr (.inr ⟨x, kk, rfl, rfl⟩))
  | ret => rw [execRet_next h]; exact .inl ⟨nofun, rfl, rfl, rfl, rfl⟩
  | call nnn => rw [execCall_next h]; exact .inl ⟨nofun, rfl, rfl, rfl, rfl⟩
  | ldVxK x => obtain rfl | ⟨b, rfl⟩ := execLdVxK_next h <;> exact .inl ⟨nofun, rfl, rfl, rfl, rfl⟩
  | skp x => obtain ⟨c, rfl⟩ := execSkp_next h; exact .inl ⟨nofun, samePeripherals_skipIf c⟩
  | sknp x => obtain ⟨c, rfl⟩ := execSknp_next h; exact .inl ⟨nofun, samePeripherals_skipIf c⟩
  | seImm | sneImm | seReg | sneReg => cases h; exact .inl ⟨nofun, samePeripherals_skipIf _⟩
  | ldRegs => obtain rfl := State.withSpan_next h; exact .inl ⟨nofun, samePeripherals_loadRegs _⟩
  | ldB | stRegs => obtain rfl := State.withSpan_next h; exact .inl ⟨nofun, rfl, rfl, rfl, rfl⟩
  | _ => cases h; exact .inl ⟨nofun, rfl, rfl, rfl, rfl⟩

/-- Settles O23: a step is the decoded instruction and the tick, and the tick reaches none of these fields. -/
theorem displayKeyFaultAndDrawWriters : Obligations.DisplayKeyFaultAndDrawWriters := by
  intro s t h
  obtain ⟨hf, -, u, hu, rfl⟩ := step_next_cases h
  rcases exec_next_peripherals hu with ⟨hi, hs⟩ | ⟨hi, rfl⟩ | ⟨x, y, n, hi, rfl⟩ | ⟨x, kk, hi, rfl⟩
  · simp [hi, hf, hs.D, hs.key, hs.fault, hs.drawIndex]
  · simp [hi, hf]
  · simp [hi, hf]
  · simp [hi, hf]

end Sys2Proof.Machine
end

section
/-! SUPPORT. What each instruction may write, as the model's own `Writes`, and that an instruction that completes
writes nothing else. -/

namespace Sys2Proof.Machine

/-! ### Memory, canonical or not -/

/-- A byte listed for one address is not seen at another. -/
theorem Memory.read_cons_ne {m : Memory} {a a' : Nat} {b : Byte} (h : a' ≠ a) :
    (Memory.cons a b m).read a' = m.read a' := by
  unfold Memory.cons
  split
  · rfl
  · simp [Memory.read, Ne.symm h]

/-- A write is seen at its own address only, whatever the list. -/
theorem Memory.read_write_ne {m : Memory} {a a' : Nat} {b : Byte} (h : a' ≠ a) : (m.write a b).read a' = m.read a' := by
  induction m with
  | nil => exact Memory.read_cons_ne h
  | cons e rest ih =>
    simp only [Memory.write]
    split
    · exact Memory.read_cons_ne h
    · split
      · next heq => rw [Memory.read_cons_ne h, Memory.read, if_neg (heq ▸ h.symm)]
      · simp only [Memory.read, ih]

/-- Consecutive writes are seen at their own addresses only. -/
theorem Memory.read_writeBytes_outside {m : Memory} {a a' : Nat} {bs : List Byte} (h : a' < a ∨ a + bs.length ≤ a') :
    (m.writeBytes a bs).read a' = m.read a' := by
  induction bs generalizing m a with
  | nil => rfl
  | cons b bs ih =>
    simp only [List.length_cons] at h
    rw [Memory.writeBytes, ih (by omega), Memory.read_write_ne (by omega)]

variable {s t : State}

/-- A store over the span from I leaves every byte outside the span. -/
theorem State.read_writeSpan_outside {bs : List Byte} {a : Nat} (h : a ∉ s.span bs.length) :
    (s.writeSpan bs).M.read a = s.M.read a := by
  refine Memory.read_writeBytes_outside ?_
  by_contra hin
  refine h (List.mem_map.mpr ⟨a - s.addr 0, List.mem_range.mpr ?_, ?_⟩) <;> simp only [State.addr] at * <;> omega

/-! ### The frame of each instruction -/

/-- What each instruction may write, the pc apart (40_control.md to 44_keys_timers.md). -/
def State.writes (s : State) : Instr → Writes
  | .cls => { D := true }
  | .ret | .call _ => { stack := true }
  | .ldImm x _ | .addImm x _ | .ldReg x _ | .orReg x _ | .andReg x _ | .xorReg x _ | .ldVxDt x | .ldVxK x =>
    { regs := [x] }
  | .addReg x _ | .sub x _ | .shr x | .subn x _ | .shl x => { regs := [x, VF] }
  | .ldI _ | .addI _ | .ldF _ => { I := true }
  | .rnd x _ => { regs := [x], draw := true }
  | .drw _ _ _ => { regs := [VF], D := true }
  | .ldDtVx _ => { DT := true }
  | .ldStVx _ => { ST := true }
  | .ldB _ => { mem := s.span 3 }
  | .stRegs x => { mem := s.span (x.val + 1) }
  | .ldRegs x => { regs := (List.finRange 16).take (x.val + 1) }
  | .jp _ | .jpV0 _ | .seImm _ _ | .sneImm _ _ | .seReg _ _ | .sneReg _ _ | .skp _ | .sknp _
  | .nop0 _ | .nop8 _ | .nopE _ | .nopF _ => {}

/-! The frame of each operation. -/

theorem frame_setReg {w : Writes} {x : RegIdx} (b : Byte) (h : x ∈ w.regs) : Frame w s (s.setReg x b) := by
  constructor
  case regs => exact fun r hr => s.setReg_reg_ne b fun e => hr (e ▸ h)
  all_goals simp

/-- A frame that holds of two writes in a row holds of both. -/
theorem Frame.trans {w : Writes} {u : State} (h : Frame w s t) (h' : Frame w t u) : Frame w s u where
  regs r hr := (h'.regs r hr).trans (h.regs r hr)
  I hw := (h'.I hw).trans (h.I hw)
  SP hw := (h'.SP hw).trans (h.SP hw)
  stack hw := (h'.stack hw).trans (h.stack hw)
  DT hw := (h'.DT hw).trans (h.DT hw)
  ST hw := (h'.ST hw).trans (h.ST hw)
  D hw := (h'.D hw).trans (h.D hw)
  draw hw := (h'.draw hw).trans (h.draw hw)
  key := h'.key.trans h.key
  fault := h'.fault.trans h.fault
  mem a ha := (h'.mem a ha).trans (h.mem a ha)

theorem frame_setFlagThenReg (f b : Byte) (x : RegIdx) : Frame { regs := [x, VF] } s (s.setFlagThenReg f x b) :=
  (frame_setReg f (by simp)).trans (frame_setReg b (by simp))

theorem frame_skipIf (c : Bool) : Frame {} s (s.skipIf c) := by constructor <;> simp

theorem frame_writeSpan (bs : List Byte) : Frame { mem := s.span bs.length } s (s.writeSpan bs) := by
  constructor
  case mem => exact fun a ha => State.read_writeSpan_outside ha
  all_goals simp

theorem frame_loadRegs (n : Nat) : Frame { regs := (List.finRange 16).take n } s (s.loadRegs n) := by
  constructor
  case regs =>
    intro r hr
    rw [State.loadRegs_reg, if_neg fun hn => hr (List.mem_take_iff_getElem.mpr ⟨r.val, by simp [hn], by simp⟩)]
  all_goals simp

/-- An instruction that completes changes nothing but the pc and what it may write. -/
theorem exec_frame {i : Instr} (h : exec i s = .next t) : Frame (s.writes i) s t := by
  cases i with
  | ret => rw [execRet_next h]; constructor <;> simp [State.writes, State.reg]
  | call nnn => rw [execCall_next h]; constructor <;> simp [State.writes, State.reg]
  | ldImm | addImm | ldReg | orReg | andReg | xorReg | ldVxDt => cases h; exact frame_setReg _ (by simp [State.writes])
  | addReg | sub | shr | subn | shl => cases h; exact frame_setFlagThenReg _ _ _
  | seImm | sneImm | seReg | sneReg => cases h; exact frame_skipIf _
  | skp x => obtain ⟨c, rfl⟩ := execSkp_next h; exact frame_skipIf c
  | sknp x => obtain ⟨c, rfl⟩ := execSknp_next h; exact frame_skipIf c
  | ldVxK x =>
    obtain rfl | ⟨b, rfl⟩ := execLdVxK_next h
    · constructor <;> simp
    · exact frame_setReg b (by simp [State.writes])
  | rnd x kk =>
    cases h
    refine Frame.trans (t := s.drawn) ?_ (frame_setReg _ (by simp [State.writes]))
    constructor <;> simp [State.writes]
  | drw x y n =>
    obtain rfl := State.withSpan_next h
    refine Frame.trans (t := s.setD (s.drawing x y n).display) ?_ (frame_setReg _ (by simp [State.writes]))
    constructor <;> simp [State.writes]
  | ldB x => obtain rfl := State.withSpan_next h; exact frame_writeSpan (bcdDigits (s.reg x))
  | stRegs x =>
    obtain rfl := State.withSpan_next h
    have hlen : (s.firstRegs (x.val + 1)).length = x.val + 1 := s.firstRegs_length (by omega)
    have hF := frame_writeSpan (s := s) (s.firstRegs (x.val + 1))
    rw [hlen] at hF
    exact hF
  | ldRegs x => obtain rfl := State.withSpan_next h; exact frame_loadRegs _
  | _ => cases h; constructor <;> simp [State.writes]

end Sys2Proof.Machine
end

section
/-! SUPPORT. Who writes the index register, the stack, the timers and the flag, and the pc after every cycle. -/

namespace Sys2Proof.Machine

variable {s t : State}

/-- A RET that completes pops the slot below SP into the pc (R100). -/
theorem execRet_next_eq (h : execRet s = .next t) :
    ∃ (_ : 0 < s.SP.val) (_ : s.SP.val - 1 < 16),
      t = { s with SP := ⟨s.SP.val - 1, by omega⟩, pc := s.stack[s.SP.val - 1] } := by
  unfold execRet at h
  rcases s.pop_spec with ⟨h0, h1, e⟩ | ⟨-, e⟩ <;> rw [e] at h <;> cases h
  exact ⟨h0, h1, rfl⟩

/-- A CALL that completes pushes the post-fetch pc and jumps (R102). -/
theorem execCall_next_eq {nnn : Addr12} (h : execCall nnn s = .next t) :
    ∃ hSP : s.SP.val < 16,
      t = { s with stack := s.stack.set s.SP.val s.pc, SP := ⟨s.SP.val + 1, by omega⟩, pc := zextNnn nnn } := by
  unfold execCall at h
  rcases s.push_spec s.pc with ⟨hSP, e⟩ | ⟨-, e⟩ <;> rw [e] at h <;> cases h
  exact ⟨hSP, rfl⟩

@[simp] theorem zextNnn_toNat (nnn : Addr12) : (zextNnn nnn).toNat = nnn.toNat :=
  BitVec.toNat_setWidth_of_le (by omega)

/-- The glyph address never wraps: the digit is one byte (R152). -/
theorem glyphAddr_toNat (v : Byte) : (glyphAddr v).toNat = 0x50 + 5 * v.toNat := by
  have := v.isLt
  simp only [glyphAddr, Config.fontBase, BitVec.toNat_ofNat]
  omega

/-- Settles O20: the three writers of I by their values, every other instruction by its frame. -/
theorem indexRegisterWriters : Obligations.IndexRegisterWriters := by
  intro s t h
  obtain ⟨-, -, u, hu, rfl⟩ := step_next_cases h
  have hF := exec_frame hu
  generalize decode s.word = i at hu hF ⊢
  cases i with
  | ldI nnn => cases hu; exact zextNnn_toNat nnn
  | addI x =>
    cases hu
    change (s.I + (s.reg x).setWidth 16).toNat = _
    rw [BitVec.toNat_add, BitVec.toNat_setWidth_of_le (by omega)]
  | ldF x => cases hu; exact glyphAddr_toNat _
  | _ => exact hF.I rfl

/-- Settles O22: CALL and RET by what they leave, every other instruction by its frame. -/
theorem stackWriters : Obligations.StackWriters := by
  intro s t h
  obtain ⟨-, -, u, hu, rfl⟩ := step_next_cases h
  have hF := exec_frame hu
  generalize decode s.word = i at hu hF ⊢
  cases i with
  | call nnn =>
    obtain ⟨hSP, rfl⟩ := execCall_next_eq hu
    simp [Vector.getElem_set, eq_comm]
  | ret =>
    obtain ⟨h0, -, rfl⟩ := execRet_next_eq hu
    exact ⟨Nat.sub_add_cancel h0, rfl⟩
  | _ => exact ⟨hF.SP rfl, hF.stack rfl⟩

theorem writes_DT {i : Instr} (h : ∀ x, i ≠ .ldDtVx x) : (s.writes i).DT = false := by
  cases i with
  | ldDtVx x => exact absurd rfl (h x)
  | _ => rfl

theorem writes_ST {i : Instr} (h : ∀ x, i ≠ .ldStVx x) : (s.writes i).ST = false := by
  cases i with
  | ldStVx x => exact absurd rfl (h x)
  | _ => rfl

/-- Settles O15: the tick takes 1 from what the instruction left, which is the old timer unless it wrote it. -/
theorem timersTickAtTheEndOfEveryCycle : Obligations.TimersTickAtTheEndOfEveryCycle := by
  intro s t h
  obtain ⟨-, -, u, hu, rfl⟩ := step_next_cases h
  have hF := exec_frame hu
  simp only [State.tick_DT, State.tick_ST, tickTimer_toNat]
  refine ⟨fun hi => ?_, fun x hi => ?_, fun hi => ?_, fun x hi => ?_⟩
  · rw [hF.DT (writes_DT hi)]; rfl
  · rw [hi] at hu; cases hu; rfl
  · rw [hF.ST (writes_ST hi)]; rfl
  · rw [hi] at hu; cases hu; rfl

/-- VF is the last register, so only a load of all sixteen reaches it. -/
theorem eq_VF_of_mem_take {x : RegIdx} (h : VF ∈ (List.finRange 16).take (x.val + 1)) : x = VF := by
  obtain ⟨k, hk, e⟩ := List.mem_take_iff_getElem.mp h
  have : k = 15 := by simpa [VF] using congrArg Fin.val e
  exact Fin.ext (show x.val = 15 by omega)

/-- Settles O24: VF is among the registers that the instruction may write. -/
theorem flagWriters : Obligations.FlagWriters := by
  intro i s t h hne
  have hmem : VF ∈ (s.writes i).regs := by
    by_contra hn
    exact hne ((exec_frame h).regs VF hn)
  cases i with
  | ldImm x | addImm x | ldReg x | orReg x | andReg x | xorReg x | rnd x | ldVxDt x | ldVxK x =>
    obtain rfl : VF = x := by simpa [State.writes] using hmem
    simp
  | ldRegs x => obtain rfl := eq_VF_of_mem_take hmem; simp
  | addReg | sub | subn | shr | shl | drw => simp
  | _ => simp [State.writes] at hmem

/-! ### The pc -/

/-- The pc of a skip whose condition is `c`, from the instruction's own address (R109). -/
theorem State.advancePc_skipIf_pc (c : Bool) :
    (s.advancePc.skipIf c).pc = if c then s.pc + 4 else s.pc + 2 := by
  cases c
  · rfl
  · exact BitVec.add_assoc s.pc 2 2

theorem State.advancePc_skipIf_not_pc (c : Bool) :
    (s.advancePc.skipIf (!c)).pc = if c then s.pc + 2 else s.pc + 4 := by
  rw [State.advancePc_skipIf_pc]
  cases c <;> rfl

/-- A key instruction has its effect on the key whose number `V[x]` holds (R180). -/
theorem State.withKey_named {x : RegIdx} {k : KeyIdx} (hk : k.val = (s.reg x).toNat) (f : KeyIdx → Result) :
    s.withKey x f = f k := by
  have hlt : (s.reg x).toNat < 16 := hk ▸ k.isLt
  have hkey : (⟨(s.reg x).toNat, hlt⟩ : KeyIdx) = k := Fin.ext hk.symm
  rw [State.withKey, dif_pos hlt, hkey]

/-- SKP and SKNP on the key that `V[x]` names (R180, R181). -/
theorem execSkp_named {x : RegIdx} {k : KeyIdx} (hk : k.val = (s.reg x).toNat) :
    execSkp x s = .next (s.skipIf (s.pressed k)) := State.withKey_named hk _

theorem execSknp_named {x : RegIdx} {k : KeyIdx} (hk : k.val = (s.reg x).toNat) :
    execSknp x s = .next (s.skipIf (!s.pressed k)) := State.withKey_named hk _

/-- Wait-for-key stays at its own address exactly if no key is pressed (R185). -/
theorem execLdVxK_next_pc {x : RegIdx} (h : execLdVxK x s.advancePc = .next t) :
    t.pc = if ∀ k : KeyIdx, s.key[k] = false then s.pc else s.pc + 2 := by
  unfold execLdVxK at h
  rcases s.advancePc.scanKeys_cases with ⟨e, hnone⟩ | ⟨k, e, hk, -⟩ <;> rw [e] at h <;> cases h
  · rw [if_pos (show ∀ k : KeyIdx, s.key[k] = false from hnone)]
    exact BitVec.add_sub_cancel s.pc 2
  · rw [if_neg fun hnone => Bool.noConfusion (hk.symm.trans (hnone k))]
    rfl

/-- Settles O10: the transfers by their targets, every other instruction keeps the post-fetch pc. -/
theorem pcAfterEveryCycle : Obligations.PcAfterEveryCycle := by
  refine ⟨rfl, fun s t h => ?_⟩
  obtain ⟨-, -, u, hu, rfl⟩ := step_next_cases h
  rw [State.tick_pc]
  generalize decode s.word = i at hu ⊢
  cases i with
  | jp nnn => cases hu; exact zextNnn_toNat nnn
  | call nnn => obtain ⟨_, rfl⟩ := execCall_next_eq hu; exact zextNnn_toNat nnn
  | jpV0 nnn =>
    cases hu
    have hV := (s.reg 0).isLt
    have hn := nnn.isLt
    change ((s.reg 0).setWidth 16 + zextNnn nnn).toNat = _
    rw [BitVec.toNat_add, BitVec.toNat_setWidth_of_le (by omega), zextNnn_toNat, Nat.mod_eq_of_lt (by omega)]
  | ret =>
    obtain ⟨_, _, rfl⟩ := execRet_next_eq hu
    intro j hj
    have hslot : s.SP.val - 1 = j.val := by omega
    simp [hslot]
  | seImm x kk | sneImm x kk | seReg x y | sneReg x y => cases hu; rw [State.advancePc_skipIf_pc]; simp
  | skp x =>
    intro k hk
    cases (execSkp_named (s := s.advancePc) hk).symm.trans hu
    exact State.advancePc_skipIf_pc _
  | sknp x =>
    intro k hk
    cases (execSknp_named (s := s.advancePc) hk).symm.trans hu
    exact State.advancePc_skipIf_not_pc _
  | ldVxK x => exact execLdVxK_next_pc hu
  | drw | ldB | stRegs | ldRegs => obtain rfl := State.withSpan_next hu; rfl
  | _ => cases hu; rfl

end Sys2Proof.Machine
end

section
/-! SUPPORT. What an instruction cannot see: the stack slots at and above SP, the sound timer, and, three
instructions apart, the keys. -/

namespace Sys2Proof.Machine

variable {s t : State}

/-- The result of an instruction with its next state, if it has one, changed by `f`. -/
def mapNext (f : State → State) : Result → Result
  | .next t => .next (f t)
  | .fault e => .fault e
  | .refused q => .refused q

/-- `s` with another stack, sound timer and key state. -/
def State.withUnseen (s : State) (st : Vector Word 16) (b : Byte) (ks : Keys) : State :=
  { s with stack := st, ST := b, key := ks }

/-- The instructions that read the key state (R30). -/
def readsKeys : Instr → Bool
  | .skp _ | .sknp _ | .ldVxK _ => true
  | _ => false

/-- What an instruction leaves on a stack `st`: CALL pushes the post-fetch pc (R27). -/
def State.stackAfter (s : State) (st : Vector Word 16) : Instr → Vector Word 16
  | .call _ => st.setIfInBounds s.SP.val s.pc
  | _ => st

/-- What an instruction leaves in a sound timer that held `b` (R184). -/
def State.soundAfter (s : State) (b : Byte) : Instr → Byte
  | .ldStVx x => s.reg x
  | _ => b

/-- Two stacks hold the same in the slots below `n`. -/
def AgreeBelow (n : Nat) (st st' : Vector Word 16) : Prop := ∀ j : Fin 16, j.val < n → st'[j] = st[j]

/-! ### The shared operations on a state with other unseen components -/

theorem mapNext_withSpan (f : State → State) (c : Cause) (n : Nat) (r : Result) :
    mapNext f (s.withSpan c n r) = s.withSpan c n (mapNext f r) := by
  unfold State.withSpan
  split <;> rfl

theorem mapNext_withKey (f : State → State) (x : RegIdx) (g : KeyIdx → Result) :
    mapNext f (s.withKey x g) = s.withKey x fun k => mapNext f (g k) := by
  unfold State.withKey
  split <;> rfl

variable {st : Vector Word 16} {b : Byte} {ks : Keys}

theorem State.skipIf_withUnseen (c : Bool) :
    (s.withUnseen st b ks).skipIf c = (s.skipIf c).withUnseen st b ks := by
  cases c <;> rfl

theorem State.withKey_skipIf_withUnseen (x : RegIdx) (c : KeyIdx → Bool) :
    (s.withUnseen st b ks).withKey x (fun k => .next ((s.withUnseen st b ks).skipIf (c k))) =
      mapNext (·.withUnseen st b ks) (s.withKey x fun k => .next (s.skipIf (c k))) := by
  simp only [mapNext_withKey, State.skipIf_withUnseen]
  rfl

theorem State.push_withUnseen (a : Word) :
    (s.withUnseen st b ks).push a = (s.push a).map (·.withUnseen (st.setIfInBounds s.SP.val a) b ks) := by
  by_cases h : s.SP.val < 16
  · have hset : st.set s.SP.val a = st.setIfInBounds s.SP.val a := Vector.ext fun j hj => by
      simp only [Vector.getElem_set, Vector.getElem_setIfInBounds]
    simp [State.push, State.withUnseen, h, hset]
  · simp [State.push, State.withUnseen, h]

theorem State.pop_withUnseen (hst : AgreeBelow s.SP.val s.stack st) :
    (s.withUnseen st b ks).pop = s.pop.map fun p => (p.1, p.2.withUnseen st b ks) := by
  by_cases h : 0 < s.SP.val
  · have hslot : st[s.SP.val - 1] = s.stack[s.SP.val - 1] :=
      hst ⟨s.SP.val - 1, by omega⟩ (Nat.sub_one_lt (by omega))
    simp [State.pop, State.withUnseen, h, hslot]
  · simp [State.pop, State.withUnseen, h]

/-- Replacing what an instruction cannot see replaces just that in its next state, and no fault. -/
theorem exec_withUnseen (i : Instr) (hst : AgreeBelow s.SP.val s.stack st) (hk : readsKeys i = true → ks = s.key) :
    exec i (s.withUnseen st b ks) =
      mapNext (fun t => t.withUnseen (s.stackAfter st i) (s.soundAfter b i) ks) (exec i s) := by
  cases i with
  | ret =>
    simp only [exec, execRet, State.pop_withUnseen hst]
    cases s.pop <;> rfl
  | call nnn =>
    have hpc : (s.withUnseen st b ks).pc = s.pc := rfl
    simp only [exec, execCall, hpc, State.push_withUnseen]
    cases s.push s.pc <;> rfl
  | seImm | sneImm | seReg | sneReg => exact congrArg _ (State.skipIf_withUnseen _)
  | skp x => obtain rfl := hk rfl; exact State.withKey_skipIf_withUnseen x s.pressed
  | sknp x => obtain rfl := hk rfl; exact State.withKey_skipIf_withUnseen x fun k => !s.pressed k
  | ldVxK x =>
    obtain rfl := hk rfl
    have hscan : (s.withUnseen st b s.key).scanKeys = s.scanKeys := rfl
    simp only [exec, execLdVxK, hscan]
    cases s.scanKeys <;> rfl
  | drw | ldB | stRegs | ldRegs =>
    refine Eq.trans ?_ (mapNext_withSpan (s := s) _ _ _ _).symm
    rfl
  | _ => rfl

/-- The same of a whole cycle, which ticks the sound timer at its end. -/
theorem step_withUnseen (hst : AgreeBelow s.SP.val s.stack st)
    (hk : readsKeys (decode s.word) = true → ks = s.key) :
    step (s.withUnseen st b ks) = mapNext (fun t => t.withUnseen (s.advancePc.stackAfter st (decode s.word))
      (tickTimer (s.advancePc.soundAfter b (decode s.word))) ks) (step s) := by
  cases hf : s.fault with
  | some r => simp [step, hf, State.withUnseen, mapNext]
  | none =>
    rcases fetch_cases s with ⟨hpc, -⟩ | ⟨-, hq⟩
    · rw [step_eq hf hpc, step_eq (s := s.withUnseen st b ks) hf hpc]
      change finishCycle s.pc s.word (exec (decode s.word) (s.advancePc.withUnseen st b ks)) = _
      rw [exec_withUnseen (s := s.advancePc) _ hst hk]
      cases exec (decode s.word) s.advancePc <;> rfl
    · have hq' : fetch (s.withUnseen st b ks) = fetch s := rfl
      have hf' : (s.withUnseen st b ks).fault = none := hf
      simp only [step, cycle, hf, hf', hq, hq']
      rfl

theorem step_next_withUnseen (hst : AgreeBelow s.SP.val s.stack st)
    (hk : readsKeys (decode s.word) = true → ks = s.key) (h : step s = .next t) :
    step (s.withUnseen st b ks) = .next (t.withUnseen (s.advancePc.stackAfter st (decode s.word))
      (tickTimer (s.advancePc.soundAfter b (decode s.word))) ks) := by
  rw [step_withUnseen hst hk, h]
  rfl

theorem step_fault_withUnseen {f : Fault} (hst : AgreeBelow s.SP.val s.stack st)
    (hk : readsKeys (decode s.word) = true → ks = s.key) (h : step s = .fault f) :
    step (s.withUnseen st b ks) = .fault f := by
  rw [step_withUnseen hst hk, h]
  rfl

/-- What a cycle leaves in the unseen components: the case of nothing replaced. -/
theorem step_next_unseen (h : step s = .next t) :
    t.stack = s.advancePc.stackAfter s.stack (decode s.word) ∧
      t.ST = tickTimer (s.advancePc.soundAfter s.ST (decode s.word)) ∧ t.key = s.key := by
  have hself : step s = .next (t.withUnseen _ _ _) :=
    step_next_withUnseen (st := s.stack) (b := s.ST) (ks := s.key) (fun _ _ => rfl) (fun _ => rfl) h
  have ht := Host.Outcome.next.inj (h.symm.trans hself)
  exact ⟨congrArg State.stack ht, congrArg State.ST ht, (congrArg State.key ht :)⟩

/-! ### The sound timer and the keys -/

/-- Settles O52: the case where the sound timer alone is replaced. -/
theorem soundTimerIsNeverRead : Obligations.SoundTimerIsNeverRead := by
  refine fun s b => ⟨fun t h => ⟨tickTimer (s.advancePc.soundAfter b (decode s.word)), ?_⟩, fun f h => ?_⟩
  · obtain ⟨hstack, -, hkey⟩ := step_next_unseen h
    change step (s.withUnseen s.stack b s.key) = .next (t.withUnseen t.stack _ t.key)
    rw [hstack, hkey]
    exact step_next_withUnseen (fun _ _ => rfl) (fun _ => rfl) h
  · exact step_fault_withUnseen (st := s.stack) (b := b) (ks := s.key) (fun _ _ => rfl) (fun _ => rfl) h

/-- Settles O53: the case where the keys alone are replaced. -/
theorem onlyKeyInstructionsReadTheKeys : Obligations.OnlyKeyInstructionsReadTheKeys := by
  intro s ks hi
  have hk : readsKeys (decode s.word) = true → ks = s.key := by
    cases hd : decode s.word with
    | skp x => exact absurd hd (hi x).1
    | sknp x => exact absurd hd (hi x).2.1
    | ldVxK x => exact absurd hd (hi x).2.2
    | _ => exact nofun
  refine ⟨fun t h => ?_, fun f h => ?_⟩
  · obtain ⟨hstack, hST, -⟩ := step_next_unseen h
    change step (s.withUnseen s.stack s.ST ks) = .next (t.withUnseen t.stack t.ST ks)
    rw [hstack, hST]
    exact step_next_withUnseen (fun _ _ => rfl) hk h
  · exact step_fault_withUnseen (st := s.stack) (b := s.ST) (fun _ _ => rfl) hk h

/-! ### Dead stack slots, over any run -/

/-- `s'` is `s` but for stack slots at or above SP. -/
structure SameButDeadSlots (s s' : State) : Prop where
  eq : s' = { s with stack := s'.stack }
  live : AgreeBelow s.SP.val s.stack s'.stack

/-- A cycle pushes alike on stacks that agree below SP, and pops into what they agree on. -/
theorem step_keeps_agreeBelow (h : step s = .next t) (hst : AgreeBelow s.SP.val s.stack st) :
    AgreeBelow t.SP.val t.stack (s.advancePc.stackAfter st (decode s.word)) := by
  have hw := stackWriters s t h
  rw [(step_next_unseen h).1]
  generalize decode s.word = i at hw ⊢
  intro j hj
  cases i with
  | call nnn =>
    have hlt : j.val < s.SP.val + 1 := hw.1 ▸ hj
    by_cases e : j.val = s.SP.val
    · simp [State.stackAfter, ← e]
    · have := hst j (by omega)
      simpa [State.stackAfter, Vector.getElem_setIfInBounds, Ne.symm e] using this
  | ret => exact hst j (by have := hw.1; omega)
  | _ => exact hst j (hw.1 ▸ hj)

theorem SameButDeadSlots.step_next {s' : State} (hs : SameButDeadSlots s s') (h : step s = .next t) :
    ∃ t', step s' = .next t' ∧ SameButDeadSlots t t' := by
  obtain ⟨-, hST, hkey⟩ := step_next_unseen h
  refine ⟨t.withUnseen (s.advancePc.stackAfter s'.stack (decode s.word)) t.ST t.key, ?_, rfl,
    step_keeps_agreeBelow h hs.live⟩
  rw [hs.eq, hST, hkey]
  exact step_next_withUnseen hs.live (fun _ => rfl) h

theorem SameButDeadSlots.step_fault {s' : State} {f : Fault} (hs : SameButDeadSlots s s') (h : step s = .fault f) :
    step s' = .fault f := by
  rw [hs.eq]
  exact step_fault_withUnseen (b := s.ST) (ks := s.key) hs.live (fun _ => rfl) h

theorem SameButDeadSlots.setKeys {s' : State} (hs : SameButDeadSlots s s') :
    SameButDeadSlots (s.setKeys ks) (s'.setKeys ks) :=
  ⟨congrArg (State.setKeys · ks) hs.eq, hs.live⟩

/-- Runs under the same keys keep the relation, by induction on the keys, or stop alike. -/
theorem runKeys_of_sameButDeadSlots {s' : State} (keys : List Keys) (hs : SameButDeadSlots s s') :
    (∀ t, runKeys keys s = .next t → ∃ t', runKeys keys s' = .next t' ∧ SameButDeadSlots t t') ∧
    (∀ f, runKeys keys s = .fault f → runKeys keys s' = .fault f) := by
  induction keys generalizing s s' with
  | nil => exact ⟨fun t h => ⟨s', rfl, Host.Outcome.next.inj h ▸ hs⟩, nofun⟩
  | cons ks rest ih =>
    simp only [runKeys]
    cases hstep : step (s.setKeys ks) with
    | next u =>
      obtain ⟨u', hu', hu⟩ := hs.setKeys.step_next hstep
      rw [hu']
      exact ih hu
    | fault f =>
      rw [hs.setKeys.step_fault hstep]
      exact ⟨nofun, fun _ h => h⟩
    | refused q => exact ⟨nofun, nofun⟩

/-- Settles O54: `SameButDeadSlots` is kept along any run. -/
theorem slotsAboveSPAreNeverObserved : Obligations.SlotsAboveSPAreNeverObserved := by
  intro keys s s' heq hlive
  obtain ⟨hnext, hfault⟩ := runKeys_of_sameButDeadSlots keys ⟨heq, hlive⟩
  refine ⟨fun t h => ?_, hfault⟩
  obtain ⟨t', ht', hs⟩ := hnext t h
  exact ⟨t', ht', hs.eq, hs.live⟩

end Sys2Proof.Machine
end

section
/-! SUPPORT. A canonical memory is determined by what it reads, and the glyph that load-font-address points at. -/

namespace Sys2Proof.Machine

/-- The byte a canonical memory lists first is not what its address reads as unlisted. -/
theorem Memory.read_head_ne_blank {lo k : Nat} {c : Byte} {m : Memory} (h : Memory.wfFrom lo ((k, c) :: m) = true) :
    Memory.read ((k, c) :: m) k ≠ blank k := by
  simpa [Memory.read] using (Memory.wfFrom_cons_iff.mp h).2.2.1

/-- The first address listed of two canonical memories that read alike is not above the other's: it would read as
unlisted there. -/
theorem Memory.head_le_of_read_eq {lo lo' k k' : Nat} {c c' : Byte} {m m' : Memory}
    (h : Memory.wfFrom lo ((k, c) :: m) = true) (h' : Memory.wfFrom lo' ((k', c') :: m') = true)
    (e : ∀ a, Memory.read ((k, c) :: m) a = Memory.read ((k', c') :: m') a) : k' ≤ k := by
  by_contra hlt
  have hwf : Memory.wfFrom k' ((k', c') :: m') = true :=
    Memory.wfFrom_cons_iff.mpr ⟨le_rfl, (Memory.wfFrom_cons_iff.mp h').2⟩
  exact Memory.read_head_ne_blank h ((e k).trans (Memory.read_below hwf (by omega)))

/-- Both lists are read from the lowest address up: equal heads, then equal tails. -/
theorem Memory.eq_of_read_eq {m m' : Memory} {lo : Nat} (h : Memory.wfFrom lo m = true)
    (h' : Memory.wfFrom lo m' = true) (e : ∀ a, m.read a = m'.read a) : m = m' := by
  induction m generalizing m' lo with
  | nil =>
    cases m' with
    | nil => rfl
    | cons p rest => exact absurd (e p.1).symm (Memory.read_head_ne_blank h')
  | cons p rest ih =>
    cases m' with
    | nil => exact absurd (e p.1) (Memory.read_head_ne_blank h)
    | cons p' rest' =>
      obtain ⟨k, c⟩ := p
      obtain ⟨k', c'⟩ := p'
      obtain rfl : k = k' :=
        Nat.le_antisymm (Memory.head_le_of_read_eq h' h fun a => (e a).symm) (Memory.head_le_of_read_eq h h' e)
      obtain rfl : c = c' := by simpa [Memory.read] using e k
      obtain ⟨-, -, -, hrest⟩ := Memory.wfFrom_cons_iff.mp h
      obtain ⟨-, -, -, hrest'⟩ := Memory.wfFrom_cons_iff.mp h'
      congr 1
      refine ih hrest hrest' fun a => ?_
      by_cases ha : k = a
      · rw [Memory.read_below hrest (by omega), Memory.read_below hrest' (by omega)]
      · simpa [Memory.read, ha] using e a

/-- Settles O43: from address 0 on. -/
theorem canonicalMemoryIsUnique : Obligations.CanonicalMemoryIsUnique :=
  fun _ _ h h' e => Memory.eq_of_read_eq h h' e

/-- Settles O42: the five addresses from I lie in the font region, five bytes a digit. -/
theorem fontAddressPointsAtTheGlyph : Obligations.FontAddressPointsAtTheGlyph := by
  intro s x hfont hx
  refine ⟨s.setI (glyphAddr (s.reg x)), rfl, fun r hr => ?_⟩
  have haddr : (s.setI (glyphAddr (s.reg x))).addr r = 0x50 + (5 * (s.reg x).toNat + r) := by
    rw [State.addr, State.setI_I, glyphAddr_toNat, Nat.add_assoc]
  rw [haddr]
  exact hfont _ (by omega)

end Sys2Proof.Machine
end

section
/-! SUPPORT. The decoder on the words that the encoder builds. -/

namespace Sys2Proof

variable {w : Word}

/-! ### The no-op rows: a key that its table does not map (R79) -/

theorem table0_of_unmapped (h : mapped0 (sub4 w) = false) : table0 w = .nop0 (nnnField w) := by
  unfold table0
  split
  case h_3 => rfl
  all_goals next hk => rw [hk] at h; cases h

theorem table8_of_unmapped (h : mapped8 (sub4 w) = false) : table8 w = .nop8 (nnnField w) := by
  unfold table8
  split
  case h_10 => rfl
  all_goals next hk => rw [hk] at h; cases h

theorem tableE_of_unmapped (h : mappedE (sub4 w) = false) : tableE w = .nopE (nnnField w) := by
  unfold tableE
  split
  case h_3 => rfl
  all_goals next hk => rw [hk] at h; cases h

theorem tableF_of_unmapped (h : mappedF (sub8 w) = false) : tableF w = .nopF (nnnField w) := by
  unfold tableF
  split
  case h_10 => rfl
  all_goals next hk => rw [hk] at h; cases h

/-- Each row's word is read back: the dispatch takes its category and key, the operands are its fields. -/
theorem decode_encode {i : Instr} (h : i.wf = true) : decode (encode i) = i := by
  cases i with
  | cls | ret => rfl
  | nop0 | nop8 | nopE | nopF =>
    simp only [Instr.wf, Bool.not_eq_true'] at h
    simp [encode, decode, table0_of_unmapped, table8_of_unmapped, tableE_of_unmapped, tableF_of_unmapped, h]
  | ldReg | orReg | andReg | xorReg | addReg | sub | shr | subn | shl => simp [encode, decode, table8]
  | skp | sknp => simp [encode, decode, tableE]
  | ldVxDt | ldVxK | ldDtVx | ldStVx | addI | ldF | ldB | stRegs | ldRegs => simp [encode, decode, tableF]
  | _ => simp [encode, decode]

/-- Two bytes that hold a word, with any bytes after them, are read as what the word decodes to (R52). -/
theorem decodeBytes_hi_lo (w : Word) (rest : List Byte) :
    decodeBytes (hiByte w :: loByte w :: rest) = .ok (decode w, rest) := by
  rw [decodeBytes, wordOfBytes_hi_lo]

/-- Settles O1: the word by `decode_encode`, its two bytes by the word they hold. -/
theorem decodeOfEncodeIsTheInstruction : Obligations.DecodeOfEncodeIsTheInstruction := by
  intro i h
  refine ⟨decode_encode h, fun rest => ?_⟩
  have hbytes := decodeBytes_hi_lo (encode i) rest
  rwa [decode_encode h] at hbytes

/-- The bytes of a table's word are read as what the word decodes to. -/
theorem decodeTableWord_eq (nbits n : Nat) : decodeTableWord nbits n = some (decode (tableWord nbits n)) := by
  rw [decodeTableWord, tableBytes, decodeBytes_hi_lo]

end Sys2Proof
end

section
/-! SUPPORT. What a host places is what the next fetch reads, and a step as the instruction that its bytes decode to. -/

namespace Sys2Proof.Machine

variable {s : State}

/-- With the pc in range the fetch answers the word at the pc (R52). -/
theorem fetch_of_pc_le (hpc : s.pc.toNat ≤ 0xFFE) : fetch s = .ok s.word := by
  rcases fetch_cases s with ⟨-, h⟩ | ⟨h, -⟩
  · exact h
  · omega

/-- A word placed for a fetch is seen at its own two addresses only. -/
theorem Memory.read_placeWord_ne {m : Memory} {a a' : Nat} (w : Word) (h : a' ≠ a) (h' : a' ≠ a + 1) :
    (m.placeWord a w).read a' = m.read a' := by
  unfold Memory.placeWord
  split
  · rw [Memory.read_write_ne h', Memory.read_write_ne h]
  · rfl

/-- The word at the pc after a host placed one there (log 9). -/
theorem State.withFetchWord_word (nbits w : Nat) (hm : s.M.wf = true) (hpc : s.pc.toNat ≤ 0xFFE) :
    (s.withFetchWord nbits w).word = tableWord nbits w := by
  obtain ⟨hhi, hlo⟩ := Memory.read_placeWord (w := tableWord nbits w) hm hpc
  simp [State.word, State.withFetchWord, hhi, hlo]

/-- Settles O5: the two bytes placed at the pc are the word fetched, and the placement reaches no other byte. -/
theorem fetchWordIsFetched : Obligations.FetchWordIsFetched := by
  intro s nbits w hm hpc
  refine ⟨?_, decodeTableWord_eq nbits w, fun a h h' => Memory.read_placeWord_ne _ h h', rfl⟩
  rw [fetch_of_pc_le (show (s.withFetchWord nbits w).pc.toNat ≤ 0xFFE from hpc), State.withFetchWord_word nbits w hm hpc]

/-- Settles O6: the two bytes at the pc decode to the instruction of `step_eq`, whose end of cycle is the tick or the
record. -/
theorem stepRunsTheDecodedInstruction : Obligations.StepRunsTheDecodedInstruction := by
  intro s
  refine ⟨fun r hr => ?_, fun hf hpc => ?_, fun i hf hpc hi => ?_⟩
  · rw [step, hr]
  · rcases fetch_cases s with ⟨h, -⟩ | ⟨-, h⟩
    · omega
    · simp [step, cycle, hf, h, Fault.record]
  · obtain rfl : decode s.word = i := by simpa [decodeBytes, State.word] using hi
    refine ⟨fun t ht => ⟨t.tick, ?_, tickTimer_toNat _, tickTimer_toNat _, rfl⟩, fun c info hx => ?_⟩
    · exact (step_eq hf hpc).trans (congrArg (finishCycle s.pc s.word) ht)
    · exact (step_eq hf hpc).trans (congrArg (finishCycle s.pc s.word) hx)

end Sys2Proof.Machine
end

section
/-! SUPPORT. What memory reads after the two storing instructions, and that no other instruction stores. -/

namespace Sys2Proof.Machine

variable {s t u : State}

/-- An instruction over a span completes only with its whole span in range (R156). -/
theorem State.withSpan_next_inRange {c : Cause} {n : Nat} (h : s.withSpan c n (.next u) = .next t) :
    (n = 0 ∨ s.I.toNat + n ≤ 0x1000) ∧ t = u := by
  rcases s.withSpan_cases c n (.next u) with ⟨hr, e⟩ | ⟨-, -, e⟩ <;> rw [e] at h <;> cases h
  exact ⟨hr, rfl⟩

/-! ### The bytes of a store -/

/-- The digits of a byte as the numbers that `LD B, Vx` stores: hundreds, tens, ones (R153). -/
def bcdValues (v : Byte) : List Nat := [v.toNat / 100, v.toNat / 10 % 10, v.toNat % 10]

/-- `V[0] .. V[count - 1]` as numbers. -/
def State.regValues (s : State) (count : Nat) : List Nat :=
  ((List.finRange 16).take count).map fun k => (s.reg k).toNat

theorem bcdDigits_map_toNat (v : Byte) : (bcdDigits v).map BitVec.toNat = bcdValues v := by
  have hv := v.isLt
  simp only [bcdDigits, bcdValues, List.map_cons, List.map_nil, BitVec.toNat_ofNat, List.cons.injEq, and_true]
  omega

theorem State.firstRegs_map_toNat (count : Nat) : (s.firstRegs count).map BitVec.toNat = s.regValues count :=
  List.map_map

/-- An address of the store reads the value stored there. -/
theorem State.byteAfterStore_addr {values : List Nat} {k : Nat} (h : k < values.length) :
    s.byteAfterStore values (s.addr k) = BitVec.ofNat 8 (values.getD k 0) := by
  have hin : s.addr 0 ≤ s.addr k ∧ s.addr k < s.addr values.length := by simp only [State.addr]; omega
  rw [State.byteAfterStore, if_pos hin]
  simp [State.addr]

theorem State.byteAfterStore_regValues {count : Nat} {k : RegIdx} (h : k.val < count) :
    s.byteAfterStore (s.regValues count) (s.addr k.val) = s.reg k := by
  rw [State.byteAfterStore_addr (by simp [State.regValues, h])]
  simp [State.regValues, h]

/-- Where nothing was stored every address reads as before. -/
@[simp] theorem State.byteAfterStore_nil (a : Nat) : s.byteAfterStore [] a = s.M.read a :=
  if_neg fun h => Nat.not_lt.mpr h.1 h.2

/-! ### Memory after an instruction and after a step -/

/-- The values that an instruction stores from I on: those of LD B, Vx and LD [I], Vx, and else none (R51). -/
def State.storedValues (s : State) : Instr → List Nat
  | .ldB x => bcdValues (s.reg x)
  | .stRegs x => s.regValues (x.val + 1)
  | _ => []

/-- The two stores by the span they write, every other instruction by its frame. -/
theorem exec_next_read {i : Instr} (hm : s.M.wf = true) (h : exec i s = .next t) (a : Nat) :
    t.M.read a = s.byteAfterStore (s.storedValues i) a := by
  have hF := exec_frame h
  cases i with
  | ldB x =>
    obtain ⟨hr, rfl⟩ := State.withSpan_next_inRange h
    rw [State.read_writeSpan hm (by simpa using hr), bcdDigits_map_toNat]
    rfl
  | stRegs x =>
    obtain ⟨hr, rfl⟩ := State.withSpan_next_inRange h
    have hlen : (s.firstRegs (x.val + 1)).length = x.val + 1 := s.firstRegs_length (by omega)
    rw [State.read_writeSpan hm (by omega), State.firstRegs_map_toNat]
    rfl
  | _ => exact (hF.mem a List.not_mem_nil).trans (s.byteAfterStore_nil a).symm

/-- Neither the pc advance before the instruction nor the tick after it reaches memory. -/
theorem step_next_read (hm : s.M.wf = true) (h : step s = .next t) (a : Nat) :
    t.M.read a = s.byteAfterStore (s.storedValues (decode s.word)) a := by
  obtain ⟨-, -, u, hu, rfl⟩ := step_next_cases h
  exact exec_next_read (s := s.advancePc) hm hu a

/-- Settles O21: the two stores by the bytes they leave, every other byte and instruction by the frame. -/
theorem memoryWriters : Obligations.MemoryWriters := by
  intro s t hm h
  have hread := step_next_read hm h
  obtain ⟨-, -, u, hu, rfl⟩ := step_next_cases h
  have hF := exec_frame hu
  generalize decode s.word = i at hread hu hF ⊢
  cases i with
  | ldB x =>
    have hdigit (k : Nat) (hk : k < 3) : u.M.read (s.addr k) = BitVec.ofNat 8 ((bcdValues (s.reg x)).getD k 0) :=
      (hread _).trans (State.byteAfterStore_addr hk)
    have hv := (s.reg x).isLt
    refine ⟨?_, ?_, ?_, hF.mem⟩
    all_goals
      rw [State.tick_M, hdigit _ (by omega), BitVec.toNat_ofNat]
      exact Nat.mod_eq_of_lt (by simp [bcdValues]; omega)
  | stRegs x => exact ⟨fun k hk => (hread _).trans (State.byteAfterStore_regValues (Nat.lt_succ_of_le hk)), hF.mem⟩
  | _ => exact fun a => hF.mem a List.not_mem_nil

/-- Settles O41: the fetch reads the two bytes at the pc as the instruction left them. -/
theorem nextFetchSeesTheStore : Obligations.NextFetchSeesTheStore := by
  refine ⟨fun s t hm h hpc => ?_, fun s t u x hm h hx hM hpc => ?_⟩
  · have hfetch := fetch_of_pc_le hpc
    rw [State.word, step_next_read hm h, step_next_read hm h] at hfetch
    generalize decode s.word = i at hfetch ⊢
    cases i with
    | ldB | stRegs => exact hfetch
    | _ => simpa [State.storedValues] using hfetch
  · obtain ⟨hr, -⟩ := State.withSpan_next_inRange h
    have hread (k : RegIdx) (hk : k.val < x.val + 1) : t.M.read (s.addr k.val) = s.reg k :=
      (exec_next_read hm h _).trans (State.byteAfterStore_regValues hk)
    have h0 : t.M.read s.I.toNat = s.reg 0 := hread 0 (Nat.succ_pos _)
    have h1 : t.M.read (s.I.toNat + 1) = s.reg 1 := hread 1 (Nat.lt_succ_of_le hx)
    rw [fetch_of_pc_le (by rw [hpc]; omega), State.word, hM, hpc, h0, h1]

end Sys2Proof.Machine
end

section
/-! SUPPORT. Each word against the instruction it decodes to: the row's mask, and the bits that the instruction names. -/

namespace Sys2Proof

variable {v w : Word} {i : Instr}

/-! ### The bits that a row names, as fields of the word (R80) -/

/-- Two words with the same bits under a mask have the same fields where the mask is all ones. -/
theorem extract_eq_of_and_eq {m : Word} {start len : Nat} (h : v &&& m = w &&& m)
    (hm : m.extractLsb' start len = BitVec.allOnes len) : v.extractLsb' start len = w.extractLsb' start len := by
  have hfield := congrArg (BitVec.extractLsb' start len) h
  simpa only [BitVec.extractLsb'_and, hm, BitVec.and_allOnes] using hfield

theorem word_and_all (w : Word) : w &&& 0xFFFF#16 = w := BitVec.and_allOnes

/-- The category and the key of tables 0, 8 and E. -/
theorem word_and_key (w : Word) : w &&& 0xF00F#16 = wordNnn (cat w) (0#8 ++ sub4 w : BitVec 12) := by
  rw [← wordXyn_and_key _ (xField w) (yField w), wordXyn_fields]

/-- All but the nibble of `y`. -/
theorem word_and_xKey (w : Word) : w &&& 0xFF0F#16 = wordXin (cat w) (xField w) 0 (sub4 w) := by
  rw [← wordXin_and_named _ _ _ (idxField (yField w))]
  exact congrArg (· &&& 0xFF0F#16) (wordXyn_fields w).symm

/-- All but the low nibble. -/
theorem word_and_xy (w : Word) : w &&& 0xFFF0#16 = wordXyn (cat w) (xField w) (yField w) 0 := by
  rw [← wordXyn_and_named _ _ _ (sub4 w), wordXyn_fields]

theorem idxField_nField (w : Word) : idxField (nField w) = sub4 w := idxField_fieldIdx _

/-! ### What a word decodes to -/

/-- What a decoder owes a word it reads as `i` (R71 to R81): `i` is an instruction, its own word has the bits of `w`
wherever `i` names them, and a no-op carries the whole word (log 12). -/
structure Reads (w : Word) (i : Instr) : Prop where
  wf : i.wf = true
  named : encode i &&& i.named = w &&& i.named
  nop : ∀ rest : Addr12, i ∈ [Instr.nop0 rest, .nop8 rest, .nopE rest, .nopF rest] → encode i = w

/-- An instruction whose own word is `w` owes it nothing more. -/
theorem Reads.of_encode_eq (hwf : i.wf = true) (h : encode i = w) : Reads w i :=
  ⟨hwf, by rw [h], fun _ _ => h⟩

theorem table0_reads (hc : cat w = 0x0#4) : Reads w (table0 w) := by
  unfold table0
  split
  case h_3 =>
    refine .of_encode_eq ?_ (by rw [encode, ← hc, wordNnn_fields])
    simp_all [Instr.wf, lowNibble_nnnField, mapped0]
  all_goals next hk => exact ⟨rfl, by rw [Instr.named, word_and_key w, hc, hk]; rfl, by simp⟩

theorem table8_reads (hc : cat w = 0x8#4) : Reads w (table8 w) := by
  unfold table8
  split
  -- SHR and SHL, whose nibble of `y` is ignored
  case h_7 | h_9 =>
    next hk => exact ⟨rfl, by rw [encode, Instr.named, wordXin_and_named, word_and_xKey, hc, hk], by simp⟩
  case h_10 =>
    refine .of_encode_eq ?_ (by rw [encode, ← hc, wordNnn_fields])
    simp_all [Instr.wf, lowNibble_nnnField, mapped8]
  all_goals next hk => exact .of_encode_eq rfl (by rw [encode, ← hc, ← hk, wordXyn_fields])

theorem tableE_reads (hc : cat w = 0xE#4) : Reads w (tableE w) := by
  unfold tableE
  split
  case h_3 =>
    refine .of_encode_eq ?_ (by rw [encode, ← hc, wordNnn_fields])
    simp_all [Instr.wf, lowNibble_nnnField, mappedE]
  all_goals
    next hk => exact ⟨rfl, by rw [encode, Instr.named, wordXin_and_named, word_and_xKey, hc, hk], by simp⟩

theorem tableF_reads (hc : cat w = 0xF#4) : Reads w (tableF w) := by
  unfold tableF
  split
  case h_10 =>
    refine .of_encode_eq ?_ (by rw [encode, ← hc, wordNnn_fields])
    simp_all [Instr.wf, lowByte_nnnField, mappedF]
  all_goals next hk => exact .of_encode_eq rfl (by rw [encode, ← hc, ← hk]; exact wordXkk_fields w)

theorem decode_reads (w : Word) : Reads w (decode w) := by
  unfold decode
  split
  case h_1 hc => exact table0_reads hc
  case h_9 hc => exact table8_reads hc
  case h_15 hc => exact tableE_reads hc
  case h_16 =>
    -- the one category that the patterns before leave
    simp only [imp_false] at *
    exact tableF_reads (by bv_omega)
  -- the rows with `nnn`: JP, CALL, LD I, JP V0
  case h_2 | h_3 | h_11 | h_12 => next hc => exact .of_encode_eq rfl (by rw [encode, ← hc, wordNnn_fields])
  -- 5xyN and 9xyN, whose low nibble is ignored
  case h_6 | h_10 => next hc => exact ⟨rfl, by rw [encode, Instr.named, wordXyn_and_named, word_and_xy, hc], by simp⟩
  -- DRW
  case h_14 hc => exact .of_encode_eq rfl (by rw [encode, idxField_nField, ← hc, wordXyn_fields])
  -- the rows with `x` and `kk`
  all_goals next hc => exact .of_encode_eq rfl (by rw [encode, ← hc, wordXkk_fields])

/-- A word whose key its table does not map decodes to the table's no-op. -/
theorem decode_of_unmapped
    (h : cat w = 0x0 ∧ sub4 w ∉ [0x0#4, 0xE#4] ∨
      cat w = 0x8 ∧ sub4 w ∉ [0x0#4, 0x1#4, 0x2#4, 0x3#4, 0x4#4, 0x5#4, 0x6#4, 0x7#4, 0xE#4] ∨
      cat w = 0xE ∧ sub4 w ∉ [0xE#4, 0x1#4] ∨
      cat w = 0xF ∧ sub8 w ∉ [0x07#8, 0x0A#8, 0x15#8, 0x18#8, 0x1E#8, 0x29#8, 0x33#8, 0x55#8, 0x65#8]) :
    decode w ∈ [Instr.nop0 (nnnField w), .nop8 (nnnField w), .nopE (nnnField w), .nopF (nnnField w)] := by
  rcases h with ⟨hc, hk⟩ | ⟨hc, hk⟩ | ⟨hc, hk⟩ | ⟨hc, hk⟩ <;> rw [← List.contains_iff_mem, Bool.not_eq_true] at hk
  · simp [decode, hc, table0_of_unmapped hk]
  · simp [decode, hc, table8_of_unmapped hk]
  · simp [decode, hc, tableE_of_unmapped hk]
  · simp [decode, hc, tableF_of_unmapped hk]

/-! ### The row's mask -/

open Laws.OpcodeBits in
/-- The encoder writes the fixed bits of the row (30_encoding.md section 6). -/
theorem encode_and_opMask (i : Instr) : encode i &&& i.opMask = i.opMatch := by
  cases i
  exacts [cls, ret, jp _, call _, seImm _ _, sneImm _ _, seReg _ _, ldImm _ _, addImm _ _, ldReg _ _, orReg _ _,
    andReg _ _, xorReg _ _, addReg _ _, sub _ _, shr _, subn _ _, shl _, sneReg _ _, ldI _, jpV0 _, rnd _ _,
    drw _ _ _, skp _, sknp _, ldVxDt _, ldVxK _, ldDtVx _, ldStVx _, addI _, ldF _, ldB _, stRegs _, ldRegs _,
    nop0 _, nop8 _, nopE _, nopF _]

/-- The fixed bits of a row are among those it names. -/
theorem named_and_opMask (i : Instr) : i.named &&& i.opMask = i.opMask := by
  cases i <;> rw [Instr.named, Instr.opMask] <;> rfl

/-- Settles O2: the fixed bits of the row are bits that the instruction names, and those the word shares with the
encoder's. -/
theorem everyWordDecodesByItsRow : Obligations.EveryWordDecodesByItsRow := by
  intro w
  obtain ⟨hwf, hnamed, hnop⟩ := decode_reads w
  refine ⟨hwf, ?_, hnamed, hnop⟩
  calc w &&& (decode w).opMask
    _ = (w &&& (decode w).named) &&& (decode w).opMask := by rw [BitVec.and_assoc, named_and_opMask]
    _ = encode (decode w) &&& (decode w).opMask := by rw [← hnamed, BitVec.and_assoc, named_and_opMask]
    _ = (decode w).opMatch := encode_and_opMask _

end Sys2Proof
end

section
/-! SUPPORT. An unmapped word is inert, and an instruction's execution depends on the bits it names only. -/

namespace Sys2Proof.Machine

variable {s : State} {v w : Word} {i : Instr}

/-! ### The no-op handler (R79) -/

theorem exec_noOp {rest : Addr12} (hi : i ∈ [Instr.nop0 rest, .nop8 rest, .nopE rest, .nopF rest]) :
    exec i s = .next s := by
  simp only [List.mem_cons, List.not_mem_nil, or_false] at hi
  rcases hi with rfl | rfl | rfl | rfl <;> rfl

theorem frame_refl (w : Writes) : Frame w s s := by constructor <;> simp

/-- The pc advance and the tick reach the pc and the timers only (R83, R210). -/
theorem frame_advancePc_tick : Frame { DT := true, ST := true } s s.advancePc.tick := by constructor <;> simp

/-- Settles O51: the instruction of an unmapped word is a no-op, so that the cycle is the pc advance and the tick. -/
theorem noOpIsInert : Obligations.NoOpIsInert := by
  refine ⟨fun s rest i hi => ⟨s, exec_noOp hi, rfl, frame_refl _⟩, fun s hf hpc hw => ?_⟩
  have hstep : step s = .next s.advancePc.tick := by
    rw [step_eq hf hpc, exec_noOp (decode_of_unmapped hw)]
    rfl
  exact ⟨_, hstep, rfl, tickTimer_toNat s.DT, tickTimer_toNat s.ST, frame_advancePc_tick⟩

/-! ### Ignored bits (R80) -/

/-- A word with the bits that an instruction names decodes to that instruction, or to a no-op as it is one: the dispatch
and the operands lie within the named bits. -/
theorem exec_decode_of_named (hwf : i.wf = true) (h : v &&& i.named = encode i &&& i.named) :
    exec (decode v) s = exec i s := by
  have hc : cat v = cat (encode i) := extract_eq_of_and_eq h (by cases i <;> rw [Instr.named] <;> rfl)
  cases i with
  | cls | ret =>
    rw [Instr.named] at h
    have hk : sub4 v = sub4 _ := extract_eq_of_and_eq h rfl
    simp only [decode, table0, hc, hk]
    rfl
  | shr | shl | skp | sknp =>
    rw [Instr.named] at h
    have hk : sub4 v = sub4 _ := extract_eq_of_and_eq h rfl
    have hx : xField v = xField _ := congrArg fieldIdx (extract_eq_of_and_eq h rfl)
    simp [decode, table8, tableE, encode, hc, hk, hx]
  | seReg | sneReg =>
    rw [Instr.named] at h
    have hx : xField v = xField _ := congrArg fieldIdx (extract_eq_of_and_eq h rfl)
    have hy : yField v = yField _ := congrArg fieldIdx (extract_eq_of_and_eq h rfl)
    simp [decode, encode, hc, hx, hy]
  | nop0 | nop8 | nopE =>
    rw [Instr.named, encode] at h
    have hk : sub4 v = lowNibble _ := (extract_eq_of_and_eq h rfl).trans (sub4_wordNnn _ _)
    simp only [Instr.wf, ← hk, Bool.not_eq_true'] at hwf
    simp only [decode, hc, encode, cat_wordNnn, table0_of_unmapped, table8_of_unmapped, tableE_of_unmapped, hwf]
    rfl
  | nopF =>
    rw [Instr.named, encode] at h
    have hk : sub8 v = lowByte _ := (extract_eq_of_and_eq h rfl).trans (sub8_wordNnn _ _)
    simp only [Instr.wf, ← hk, Bool.not_eq_true'] at hwf
    simp only [decode, hc, encode, cat_wordNnn, tableF_of_unmapped hwf]
    rfl
  | _ =>
    rw [Instr.named, word_and_all, word_and_all] at h
    rw [h, decode_encode hwf]

/-- Settles O3: the word's own instruction has its named bits, and so has any word that agrees with it on them. -/
theorem ignoredBitsNeverChangeTheResult : Obligations.IgnoredBitsNeverChangeTheResult := by
  intro w w' s h
  have hw := decode_reads w
  exact exec_decode_of_named hw.wf (h.symm.trans hw.named.symm)

end Sys2Proof.Machine
end

section
/-! SUPPORT. No instruction is refused, and every fault of a cycle is recorded. -/

namespace Sys2Proof.Machine

variable {s : State}

/-- A guard raises or leaves the answer to what it guards. -/
theorem State.withSpan_ne_refused {c : Cause} {n : Nat} {r : Result} {q : Refusal} (h : r ≠ .refused q) :
    s.withSpan c n r ≠ .refused q := by
  rcases s.withSpan_cases c n r with ⟨-, e⟩ | ⟨-, -, e⟩ <;> rw [e]
  · exact h
  · nofun

theorem State.withKey_ne_refused {x : RegIdx} {g : KeyIdx → Result} {q : Refusal} (h : ∀ k, g k ≠ .refused q) :
    s.withKey x g ≠ .refused q := by
  rcases s.withKey_cases x g with ⟨_, e⟩ | ⟨-, e⟩ <;> rw [e]
  · exact h _
  · nofun

/-- An instruction completes or raises, whichever way its guard goes (R81, R200). -/
theorem exec_ne_refused (i : Instr) (q : Refusal) : exec i s ≠ .refused q := by
  cases i with
  | ret => rw [exec, execRet]; split <;> nofun
  | call => rw [exec, execCall]; split <;> nofun
  | ldVxK => rw [exec, execLdVxK]; split <;> nofun
  | skp => rw [exec, execSkp]; exact State.withKey_ne_refused fun _ => nofun
  | sknp => rw [exec, execSknp]; exact State.withKey_ne_refused fun _ => nofun
  | drw | ldB | stRegs | ldRegs => refine State.withSpan_ne_refused ?_; nofun
  | _ => nofun

/-- What a step answers as a fault is a record: a raise becomes one at the end of its cycle (R203). -/
theorem step_fault_recorded {f : Fault} (h : step s = .fault f) : ∃ r, f = .recorded r := by
  obtain ⟨r, -, rfl⟩ | ⟨-, -, rfl⟩ | ⟨-, -, g, -, rfl⟩ := step_fault_cases h
  · exact ⟨r, rfl⟩
  · exact ⟨_, rfl⟩
  · cases g <;> exact ⟨_, rfl⟩

/-- Settles O9: a step is refused only if its instruction is, and a fault it answers is recorded. -/
theorem noCycleIsRefused : Obligations.NoCycleIsRefused := by
  refine ⟨fun i s q => exec_ne_refused i q, fun s => ?_⟩
  cases h : step s with
  | next t => exact .inl ⟨t, rfl⟩
  | fault f =>
    obtain ⟨r, rfl⟩ := step_fault_recorded h
    exact .inr ⟨r, rfl⟩
  | refused q => exact absurd (step_refused_cases h) (exec_ne_refused _ q)

end Sys2Proof.Machine
end

section
/-! SUPPORT. What each control transfer does from every state: the state it completes with, or the fault it raises. -/

namespace Sys2Proof.Machine

variable {s : State}

/-! ### Jumps -/

/-- The sum of JP V0 never wraps: a byte and a 12-bit address (R107, D4). -/
theorem toNat_setWidth_add_zextNnn (v : Byte) (nnn : Addr12) :
    (v.setWidth 16 + zextNnn nnn).toNat = v.toNat + nnn.toNat := by
  have hv := v.isLt
  have hn := nnn.isLt
  rw [BitVec.toNat_add, BitVec.toNat_setWidth_of_le (by omega), zextNnn_toNat, Nat.mod_eq_of_lt (by omega)]

/-- Settles O25: each jump only sets the pc, to its target. -/
theorem jumpResults : Obligations.JumpResults := fun s nnn =>
  ⟨⟨_, rfl, zextNnn_toNat nnn, exec_frame (i := .jp nnn) rfl⟩,
    ⟨_, rfl, toNat_setWidth_add_zextNnn (s.reg 0) nnn, exec_frame (i := .jpV0 nnn) rfl⟩⟩

/-! ### CALL and RET -/

theorem exec_call_of_lt (nnn : Addr12) (h : s.SP.val < 16) : ∃ t, exec (.call nnn) s = .next t := by
  rw [exec, execCall]
  rcases s.push_spec s.pc with ⟨_, e⟩ | ⟨hfull, -⟩
  · rw [e]; exact ⟨_, rfl⟩
  · omega

theorem exec_call_of_full (nnn : Addr12) (h : s.SP.val = 16) :
    exec (.call nnn) s = .fault (.raised .stackOverflow none) := by
  rw [exec, execCall]
  rcases s.push_spec s.pc with ⟨hlt, -⟩ | ⟨-, e⟩
  · omega
  · rw [e]; rfl

theorem exec_ret_of_pos (h : 0 < s.SP.val) : ∃ t, exec .ret s = .next t := by
  rw [exec, execRet]
  rcases s.pop_spec with ⟨_, _, e⟩ | ⟨hempty, -⟩
  · rw [e]; exact ⟨_, rfl⟩
  · omega

theorem exec_ret_of_empty (h : s.SP.val = 0) : exec .ret s = .fault (.raised .stackUnderflow none) := by
  rw [exec, execRet]
  rcases s.pop_spec with ⟨hpos, -⟩ | ⟨-, e⟩
  · omega
  · rw [e]; rfl

/-- Settles O26: the push and the jump below 16, the fault at 16. -/
theorem callResult : Obligations.CallResult := by
  refine fun s nnn => ⟨fun hlt => ?_, exec_call_of_full nnn⟩
  obtain ⟨t, h⟩ := exec_call_of_lt nnn hlt
  have hF := exec_frame h
  obtain ⟨_, rfl⟩ := execCall_next_eq h
  refine ⟨_, h, zextNnn_toNat nnn, rfl, fun j => ?_, hF⟩
  simp [Vector.getElem_set, eq_comm]

/-- Settles O27: the pop into the pc above 0, the fault at 0. -/
theorem returnResult : Obligations.ReturnResult := by
  refine fun s => ⟨fun hpos => ?_, exec_ret_of_empty⟩
  obtain ⟨t, h⟩ := exec_ret_of_pos hpos
  have hF := exec_frame h
  obtain ⟨_, _, rfl⟩ := execRet_next_eq h
  refine ⟨_, h, Nat.sub_add_cancel hpos, fun j hj => ?_, rfl, hF⟩
  have hslot : s.SP.val - 1 = j.val := by omega
  simp [hslot]

/-- Settles O28: the RET pops the slot that the CALL wrote, and the slots below it are those of before the CALL. -/
theorem returnUndoesCall : Obligations.ReturnUndoesCall := by
  intro s t u nnn hcall hSP hstack
  obtain ⟨hlt, rfl⟩ := execCall_next_eq hcall
  have hSPu : u.SP.val = s.SP.val + 1 := congrArg Fin.val hSP
  obtain ⟨v, hret, hv, hpc, hkept, -⟩ := (returnResult u).1 (by omega)
  refine ⟨v, hret, ?_, Fin.ext (by omega), fun j hj => ?_⟩
  · rw [hpc ⟨s.SP.val, hlt⟩ hSPu.symm, hstack]
    exact Vector.getElem_set_self hlt
  · rw [hkept, hstack]
    exact Vector.getElem_set_ne hlt j.isLt (by omega)

/-! ### Skips -/

/-- A skip whose condition `c` is true under `P` and false under `Q` (R103 to R106). -/
theorem exec_skip_result {i : Instr} {c : Bool} {P Q : Prop} (h : exec i s = .next (s.skipIf c))
    (hP : P → c = true) (hQ : Q → c = false) :
    ∃ t, exec i s = .next t ∧ (P → t.pc = s.pc + 2) ∧ (Q → t.pc = s.pc) ∧ Frame {} s t :=
  ⟨_, h, fun p => by simp [hP p], fun q => by simp [hQ q], frame_skipIf c⟩

/-- Settles O29: each of the four is a skip on its condition. -/
theorem skipResults : Obligations.SkipResults := fun _ _ _ _ =>
  ⟨exec_skip_result rfl beq_iff_eq.mpr beq_eq_false_iff_ne.mpr,
    exec_skip_result rfl bne_iff_ne.mpr bne_eq_false_iff_eq.mpr,
    exec_skip_result rfl beq_iff_eq.mpr beq_eq_false_iff_ne.mpr,
    exec_skip_result rfl bne_iff_ne.mpr bne_eq_false_iff_eq.mpr⟩

end Sys2Proof.Machine
end

section
/-! SUPPORT. What each register and ALU instruction leaves from every state: the destination, the flag of the five
that write one, the frame. -/

namespace Sys2Proof.Machine

variable {s : State} {i : Instr} {x : RegIdx} {b f : Byte}

/-! ### Instructions that write one register and no flag -/

/-- Such an instruction completes with `b` in the destination and keeps the rest, VF included unless it is the
destination (R120 to R125). -/
theorem exec_setReg_result (h : exec i s = .next (s.setReg x b)) :
    ∃ t, exec i s = .next t ∧ t.reg x = b ∧ t.pc = s.pc ∧ Frame { regs := [x] } s t :=
  ⟨_, h, s.setReg_reg_self x b, rfl, frame_setReg b (by simp)⟩

/-- Settles O30: each of the three writes its value to the destination; the sum is that of machine words. -/
theorem moveAndAddImmediateResults : Obligations.MoveAndAddImmediateResults := by
  refine fun s x y kk => ⟨exec_setReg_result rfl, ?_, exec_setReg_result rfl⟩
  obtain ⟨t, h, hx, hpc, hF⟩ := exec_setReg_result (i := .addImm x kk) (s := s) rfl
  exact ⟨t, h, by rw [hx, BitVec.toNat_add], hpc, hF⟩

/-- An instruction whose value has the bits `p k` (R123 to R125). -/
theorem exec_bits_result {p : Nat → Bool} (h : exec i s = .next (s.setReg x b)) (hb : ∀ k, b.getLsbD k = p k) :
    ∃ t, exec i s = .next t ∧ t.pc = s.pc ∧ Frame { regs := [x] } s t ∧ ∀ k, (t.reg x).getLsbD k = p k := by
  obtain ⟨t, ht, hx, hpc, hF⟩ := exec_setReg_result h
  exact ⟨t, ht, hpc, hF, hx ▸ hb⟩

/-- Settles O31: the three operations of machine words, bit by bit. -/
theorem bitwiseResults : Obligations.BitwiseResults := fun _ _ _ =>
  ⟨exec_bits_result rfl fun _ => BitVec.getLsbD_or, exec_bits_result rfl fun _ => BitVec.getLsbD_and,
    exec_bits_result rfl fun _ => BitVec.getLsbD_xor⟩

/-! ### The flags as numbers (R34) -/

theorem flagByte_toNat (c : Bool) : (flagByte c).toNat = if c then 1 else 0 := by cases c <;> rfl

theorem carryFlag_toNat (a b : Byte) : (carryFlag a b).toNat = if a.toNat + b.toNat > 255 then 1 else 0 := by
  simp [carryFlag, flagByte_toNat]

theorem greaterFlag_toNat (a b : Byte) : (greaterFlag a b).toNat = if a.toNat > b.toNat then 1 else 0 := by
  simp [greaterFlag, flagByte_toNat]

theorem lowBitFlag_toNat (a : Byte) : (lowBitFlag a).toNat = a.toNat % 2 := by
  rw [lowBitFlag, BitVec.toNat_and]
  exact Nat.and_one_is_mod _

theorem highBitFlag_toNat (a : Byte) : (highBitFlag a).toNat = a.toNat / 128 := by
  have hbit : (highBitFlag a).toNat = a.toNat / 128 % 2 := by
    rw [highBitFlag, BitVec.toNat_and, BitVec.toNat_ushiftRight, Nat.shiftRight_eq_div_pow]
    exact Nat.and_one_is_mod _
  rw [hbit]
  omega

/-! ### Instructions that write VF and then the destination -/

/-- The value is written after the flag, so that a destination VF holds the value (R126 to R130, R14,
R132, D11). -/
theorem exec_setFlagThenReg_result {value flag : Nat} (h : exec i s = .next (s.setFlagThenReg f x b))
    (hb : b.toNat = value) (hf : f.toNat = flag) :
    ∃ t, exec i s = .next t ∧ (t.reg x).toNat = value ∧ (x ≠ VF → (t.reg VF).toNat = flag) ∧ t.pc = s.pc ∧
      Frame { regs := [x, VF] } s t := by
  refine ⟨_, h, ?_, fun hx => ?_, rfl, frame_setFlagThenReg f b x⟩
  · rw [State.setFlagThenReg, State.setReg_reg_self, hb]
  · rw [State.setFlagThenReg, State.setReg_reg_ne _ b hx.symm, State.setFlag_reg, if_pos rfl, hf]

/-- The difference as the spec writes it, with 256 added before the subtraction (R127, R129). -/
theorem toNat_sub_byte (a b : Byte) : (a - b).toNat = (256 + a.toNat - b.toNat) % 256 := by
  have hb := b.isLt
  rw [BitVec.toNat_sub]
  omega

theorem toNat_shiftRight_one (a : Byte) : (a >>> 1).toNat = a.toNat / 2 := by
  rw [BitVec.toNat_ushiftRight, Nat.shiftRight_eq_div_pow]

theorem toNat_shiftLeft_one (a : Byte) : (a <<< 1).toNat = 2 * a.toNat % 256 := by
  rw [BitVec.toNat_shiftLeft, Nat.shiftLeft_eq, Nat.mul_comm]

/-- Settles O32: the sum of machine words and the carry. -/
theorem addRegistersResult : Obligations.AddRegistersResult := fun _ _ _ =>
  exec_setFlagThenReg_result rfl (BitVec.toNat_add _ _) (carryFlag_toNat _ _)

/-- Settles O33: the two differences and the strict comparisons. -/
theorem subtractResults : Obligations.SubtractResults := fun _ _ _ =>
  ⟨exec_setFlagThenReg_result rfl (toNat_sub_byte _ _) (greaterFlag_toNat _ _),
    exec_setFlagThenReg_result rfl (toNat_sub_byte _ _) (greaterFlag_toNat _ _)⟩

/-- Settles O34: the two shifts and the bits they shift out. -/
theorem shiftResults : Obligations.ShiftResults := fun _ _ =>
  ⟨exec_setFlagThenReg_result rfl (toNat_shiftRight_one _) (lowBitFlag_toNat _),
    exec_setFlagThenReg_result rfl (toNat_shiftLeft_one _) (highBitFlag_toNat _)⟩

/-! ### The random byte -/

/-- RND completes with the draw ANDed with the immediate, and only takes a draw beside (R131). -/
theorem exec_rnd_result (s : State) (x : RegIdx) (kk : Byte) :
    ∃ t, exec (.rnd x kk) s = .next t ∧ t.reg x = s.draw8 &&& kk ∧ t.drawIndex = s.drawIndex + 1 ∧ t.pc = s.pc ∧
      Frame { regs := [x], draw := true } s t :=
  ⟨_, rfl, s.drawn.setReg_reg_self x _, rfl, rfl, exec_frame (i := .rnd x kk) rfl⟩

/-- Settles O35: what an AND with `kk` leaves of the draw, whatever the draw is (D18). -/
theorem randomMaskedResult : Obligations.RandomMaskedResult := by
  intro s x kk
  obtain ⟨t, h, hx, hdraw, hpc, hF⟩ := exec_rnd_result s x kk
  refine ⟨t, h, fun k => ?_, ?_, ?_, ?_, hdraw, hpc, hF⟩ <;> rw [hx]
  · exact BitVec.getLsbD_and
  · rw [BitVec.and_assoc, BitVec.and_not_self]
    exact BitVec.and_zero
  · rintro rfl
    exact BitVec.and_zero
  · rintro rfl
    exact BitVec.and_allOnes

end Sys2Proof.Machine
end

section
/-! SUPPORT. What each index and memory instruction leaves from every state: I, the bytes or registers of its span,
the frame, or the fault of a span out of range. -/

namespace Sys2Proof.Machine

variable {s t : State} {x : RegIdx}

/-! ### Instructions that write I -/

theorem frame_setI (a : Word) : Frame { I := true } s (s.setI a) := by constructor <;> simp

/-- Such an instruction completes with `a` in I and keeps the rest (R150 to R152). -/
theorem exec_setI_result {i : Instr} {a : Word} {n : Nat} (h : exec i s = .next (s.setI a)) (ha : a.toNat = n) :
    ∃ t, exec i s = .next t ∧ t.I.toNat = n ∧ t.pc = s.pc ∧ Frame { I := true } s t :=
  ⟨_, h, ha, rfl, frame_setI a⟩

/-- The sum wraps at the width of I (R151, D6). -/
theorem toNat_add_setWidth_byte (a : Word) (v : Byte) :
    (a + v.setWidth 16).toNat = (a.toNat + v.toNat) % 65536 := by
  rw [BitVec.toNat_add, BitVec.toNat_setWidth_of_le (by omega)]

/-- Settles O36: each of the three sets I to its value. -/
theorem indexResults : Obligations.IndexResults := fun _ _ nnn =>
  ⟨exec_setI_result rfl (zextNnn_toNat nnn), exec_setI_result rfl (toNat_add_setWidth_byte _ _),
    exec_setI_result rfl (glyphAddr_toNat _)⟩

/-! ### The span from I, by its last address -/

theorem State.withSpan_of_last_le (c : Cause) {k : Nat} (r : Result) (h : s.I.toNat + k ≤ 0xFFF) :
    s.withSpan c (k + 1) r = r := by
  rcases s.withSpan_cases c (k + 1) r with ⟨-, e⟩ | ⟨-, hout, -⟩
  · exact e
  · omega

theorem State.withSpan_of_lt_last (c : Cause) {k : Nat} (r : Result) (h : 0xFFF < s.I.toNat + k) :
    s.withSpan c (k + 1) r = .fault (.raised c (some (max s.I.toNat 0x1000))) := by
  rcases s.withSpan_cases c (k + 1) r with ⟨hin, -⟩ | ⟨-, -, e⟩
  · omega
  · exact e

/-! ### Stores -/

/-- A digit is a byte, as which it is stored. -/
theorem bcdValues_getD_lt (v : Byte) (k : Nat) : (bcdValues v).getD k 0 < 256 := by
  rw [← bcdDigits_map_toNat, ← BitVec.toNat_zero (w := 8), List.getD_map]
  exact BitVec.isLt _

/-- The digits that LD B leaves at the addresses from I (R153). -/
theorem exec_ldB_read (hm : s.M.wf = true) (h : exec (.ldB x) s = .next t) {k : Nat} (hk : k < 3) :
    (t.M.read (s.addr k)).toNat = (bcdValues (s.reg x)).getD k 0 := by
  have hread : t.M.read (s.addr k) = BitVec.ofNat 8 ((bcdValues (s.reg x)).getD k 0) :=
    (exec_next_read hm h _).trans (State.byteAfterStore_addr hk)
  rw [hread, BitVec.toNat_ofNat, Nat.mod_eq_of_lt (bcdValues_getD_lt _ _)]

/-- The registers that LD [I] leaves at the addresses from I (R154). -/
theorem exec_stRegs_read (hm : s.M.wf = true) (h : exec (.stRegs x) s = .next t) {k : RegIdx} (hk : k ≤ x) :
    t.M.read (s.addr k.val) = s.reg k :=
  (exec_next_read hm h _).trans (State.byteAfterStore_regValues (Nat.lt_succ_of_le hk))

/-- Settles O37: the three digits with the span in range, the fault otherwise. -/
theorem storeBcdResult : Obligations.StoreBcdResult := by
  refine fun s x hm => ⟨fun hin => ?_, State.withSpan_of_lt_last _ _⟩
  have h : exec (.ldB x) s = .next _ := State.withSpan_of_last_le _ _ hin
  exact ⟨_, h, exec_ldB_read hm h (by decide), exec_ldB_read hm h (by decide), exec_ldB_read hm h (by decide), rfl,
    exec_frame h⟩

/-- Settles O38: the registers with the span in range, the fault otherwise. -/
theorem storeRegistersResult : Obligations.StoreRegistersResult := by
  refine fun s x hm => ⟨fun hin => ?_, State.withSpan_of_lt_last _ _⟩
  have h : exec (.stRegs x) s = .next _ := State.withSpan_of_last_le _ _ hin
  exact ⟨_, h, fun _ => exec_stRegs_read hm h, rfl, exec_frame h⟩

/-! ### Loads -/

theorem exec_ldRegs_of_last_le (h : s.I.toNat + x.val ≤ 0xFFF) :
    exec (.ldRegs x) s = .next (s.loadRegs (x.val + 1)) :=
  State.withSpan_of_last_le _ _ h

/-- A load up to register `x` by the order of the registers (R155). -/
theorem State.loadRegs_succ_reg (s : State) (x r : RegIdx) :
    (s.loadRegs (x.val + 1)).reg r = if r ≤ x then s.M.read (s.addr r.val) else s.reg r := by
  simp only [State.loadRegs_reg, Nat.lt_succ_iff, Fin.val_fin_le]

/-- Settles O39: the loaded registers with the span in range, the fault otherwise. -/
theorem loadRegistersResult : Obligations.LoadRegistersResult := by
  refine fun s x => ⟨fun hin => ?_, State.withSpan_of_lt_last _ _⟩
  have h := exec_ldRegs_of_last_le hin
  exact ⟨_, h, fun k hk => by rw [State.loadRegs_succ_reg, if_pos hk], rfl, exec_frame h⟩

/-- Settles O40: the load has the span of the store, which completed, and reads the bytes that it left. -/
theorem loadUndoesStore : Obligations.LoadUndoesStore := by
  intro s t u x hm h hM hI
  obtain ⟨hin, -⟩ := State.withSpan_next_inRange h
  have haddr (k : Nat) : u.addr k = s.addr k := by rw [State.addr, hI, State.addr]
  refine ⟨_, exec_ldRegs_of_last_le (by rw [hI]; omega), fun r => ?_⟩
  rw [State.loadRegs_succ_reg]
  split
  · next hr => rw [hM, haddr, exec_stRegs_read hm h hr]
  · rfl

end Sys2Proof.Machine
end

section
/-! SUPPORT. What the display instructions leave: where a pixel is placed, what a sprite drawn once and twice does to
the display, and the state or the fault of each instruction. -/

namespace Sys2Proof.Machine

open Sys2Proof.Config (SpriteEdge)

variable {s t : State} {x y : RegIdx} {n : Fin 16}

/-! ### Clearing the display -/

/-- Settles O44: the only write is that of the display, to all pixels off. -/
theorem clearDisplayResult : Obligations.ClearDisplayResult := fun _ =>
  ⟨_, rfl, Display.get_clear, rfl, exec_frame (i := .cls) rfl⟩

/-! ### The place of a pixel -/

theorem place_clip_eq_some {px py : Nat} {row : Fin 32} {col : Fin 64} :
    place .clip px py = some (row, col) ↔ px = col.val ∧ py = row.val := by
  simp only [place]
  split
  · simp [Fin.ext_iff, and_comm]
  · simp only [reduceCtorEq, false_iff]
    omega

theorem place_clip_eq_none {px py : Nat} : place .clip px py = none ↔ 64 ≤ px ∨ 32 ≤ py := by
  rw [place, dite_eq_right_iff]
  simp only [reduceCtorEq, imp_false]
  omega

theorem place_wrap_eq_some {px py : Nat} {row : Fin 32} {col : Fin 64} :
    place .wrap px py = some (row, col) ↔ px % 64 = col.val ∧ py % 32 = row.val := by
  simp [place, Fin.ext_iff, and_comm]

/-- Settles O47: the mode is the one configured, and each mode has its own rule. -/
theorem placeOfAPixel : Obligations.PlaceOfAPixel :=
  ⟨rfl, fun _ _ _ _ => ⟨place_clip_eq_some, place_wrap_eq_some, place_clip_eq_none⟩⟩

/-! ### What a drawing does to the pixels and to the hit -/

section Drawn

variable {P : Fin 32 → Fin 64 → Prop} {c c' c'' : Canvas} {d : Display} {p : Fin 32 → Fin 64 → Bool}

/-- A drawing is an exclusive or with the pixels drawn (R173). -/
theorem Drawn.get_eq_bne (h : Drawn (fun r k => p r k = true) c c') (r : Fin 32) (k : Fin 64) :
    c'.display.get r k = (c.display.get r k != p r k) := by
  cases hp : p r k with
  | true => rw [h.on r k hp, Bool.bne_true]
  | false => rw [h.off r k (by simp [hp]), Bool.bne_false]

/-- From a canvas without a hit, a drawing has one exactly if it turned a pixel off (R173). -/
theorem Drawn.hit_iff_turnedOff (h : Drawn P { display := d, hit := false } c) :
    c.hit = true ↔ ∃ r k, d.get r k = true ∧ c.display.get r k = false := by
  simp only [h.hit, Bool.false_eq_true, false_or]
  refine exists_congr fun r => exists_congr fun k => ?_
  by_cases hp : P r k
  · simp [hp, h.on r k hp]
  · simp [hp, h.off r k hp]

/-- A drawing changes the display exactly if it draws a pixel. -/
theorem Drawn.display_ne_iff (h : Drawn P c c') : c'.display ≠ c.display ↔ ∃ r k, P r k := by
  constructor
  · intro hne
    by_contra hP
    exact hne (Display.ext_get fun r k => h.off r k fun hp => hP ⟨r, k, hp⟩)
  · rintro ⟨r, k, hp⟩ e
    have hon := h.on r k hp
    rw [e] at hon
    exact Bool.eq_not.mp hon rfl

/-- Two drawings of the same pixels give the display back. -/
theorem Drawn.twice_display (h : Drawn P c c') (h' : Drawn P { display := c'.display, hit := false } c'') :
    c''.display = c.display := by
  refine Display.ext_get fun r k => ?_
  by_cases hp : P r k
  · rw [h'.on r k hp, h.on r k hp, Bool.not_not]
  · rw [h'.off r k hp, h.off r k hp]

/-- On a blank display a drawing turns no pixel off. -/
theorem Drawn.hit_of_blank (h : Drawn P { display := d, hit := false } c) (hd : ∀ r k, d.get r k = false) :
    c.hit = false := by
  rw [← Bool.not_eq_true, h.hit_iff_turnedOff]
  rintro ⟨r, k, hon, -⟩
  rw [hd r k] at hon
  cases hon

/-- Every pixel that a drawing on a blank display turned on, the same drawing turns off again. -/
theorem Drawn.twice_hit_of_blank (h : Drawn P { display := d, hit := false } c)
    (h' : Drawn P { display := c.display, hit := false } c') (hd : ∀ r k, d.get r k = false) :
    c'.hit = true ↔ c.display ≠ d := by
  simp only [h'.hit, h.display_ne_iff, Bool.false_eq_true, false_or]
  refine exists_congr fun r => exists_congr fun k => and_iff_left_of_imp fun hp => ?_
  rw [h.on r k hp, hd r k, Bool.not_false]

end Drawn

/-! ### DRW -/

theorem exec_drw_of_inRange (x y : RegIdx) (h : n.val = 0 ∨ s.I.toNat + n.val - 1 ≤ 0xFFF) :
    ∃ t, exec (.drw x y n) s = .next t := by
  rw [exec, execDrw]
  rcases s.withSpan_cases .memRangeRead n.val _ with ⟨-, e⟩ | ⟨_, _, -⟩
  · exact ⟨_, e⟩
  · omega

theorem exec_drw_of_outOfRange (x y : RegIdx) (hn : 0 < n.val) (h : 0xFFF < s.I.toNat + n.val - 1) :
    exec (.drw x y n) s = .fault (.raised .memRangeRead (some (max s.I.toNat 0x1000))) := by
  rw [exec, execDrw]
  rcases s.withSpan_cases .memRangeRead n.val _ with ⟨_, -⟩ | ⟨-, -, e⟩
  · omega
  · exact e

/-- A DRW that completes leaves the drawing and its collision (R171, R173). -/
theorem exec_drw_next (h : exec (.drw x y n) s = .next t) :
    t.D = (s.drawing x y n).display ∧ t.reg VF = collisionFlag (s.drawing x y n).hit ∧ t.pc = s.pc := by
  obtain rfl := State.withSpan_next h
  exact ⟨rfl, State.setReg_reg_self _ VF _, rfl⟩

/-- The pixels of a drawing under Clip: those within the sprite, counted from its origin, whose bit is 1. -/
theorem lands_clip_readSpan {m xo yo : Nat} {row : Fin 32} {col : Fin 64} :
    Lands .clip xo yo (s.readSpan m) row col ↔
      (decide (yo ≤ row.val ∧ row.val < yo + m ∧ xo ≤ col.val ∧ col.val < xo + 8) &&
        (s.M.read (s.addr (row.val - yo))).getLsbD (7 - (col.val - xo))) = true := by
  simp only [Lands, place_clip_eq_some, Bool.and_eq_true, decide_eq_true_eq]
  constructor
  · rintro ⟨r, k, hk, ⟨b, hb, hbit⟩, hcol, hrow⟩
    have hr : r < m := by simpa using (List.getElem?_eq_some_iff.mp hb).1
    rw [State.readSpan_getElem? s hr, Option.some.injEq] at hb
    rw [← hrow, ← hcol, Nat.add_sub_cancel_left, Nat.add_sub_cancel_left, hb]
    exact ⟨by omega, hbit⟩
  · rintro ⟨hin, hbit⟩
    exact ⟨row.val - yo, col.val - xo, by omega, ⟨_, State.readSpan_getElem? s (by omega), hbit⟩, by omega,
      by omega⟩

theorem State.drawing_drawn (s : State) (x y : RegIdx) (n : Fin 16) :
    Drawn (Lands spriteEdge (originCol (s.reg x)) (originRow (s.reg y)) (s.readSpan n.val))
      { display := s.D, hit := false } (s.drawing x y n) :=
  drawSprite_drawn _ _ _ _ _ (by rw [State.readSpan_length]; omega)

/-- Settles O45: with the span in range the pixels are those the sprite lands on, and VF is the collision; the fault
otherwise. -/
theorem drawSpriteResult : Obligations.DrawSpriteResult := by
  refine fun s x y n hclip => ⟨fun hin => ?_, exec_drw_of_outOfRange x y⟩
  obtain ⟨t, h⟩ := exec_drw_of_inRange x y hin
  obtain ⟨hD, hVF, hpc⟩ := exec_drw_next h
  have hedge : spriteEdge = .clip := hclip
  have hdrawn := s.drawing_drawn x y n
  have hhit := hdrawn.hit_iff_turnedOff
  rw [hedge] at hdrawn
  refine ⟨t, h, ?_, fun hoff => ?_, fun hkept => ?_, hpc, exec_frame h⟩
  · rw [hD]
    exact (hdrawn.congr fun r k => lands_clip_readSpan).get_eq_bne
  · rw [hD] at hoff
    rw [hVF, hhit.mpr hoff]
    rfl
  · have hno : (s.drawing x y n).hit = false := by
      rw [← Bool.not_eq_true, hhit, ← hD]
      rintro ⟨r, k, hon, hoff⟩
      exact Bool.false_ne_true (hoff.symm.trans (hkept r k hon))
    rw [hVF, hno]
    rfl

/-- After a DRW whose origin registers are not VF, the same DRW draws the same pixels. -/
theorem drawing_drawn_after_drw (hx : x ≠ VF) (hy : y ≠ VF) (h : exec (.drw x y n) s = .next t) :
    Drawn (Lands spriteEdge (originCol (s.reg x)) (originRow (s.reg y)) (s.readSpan n.val))
      { display := (s.drawing x y n).display, hit := false } (t.drawing x y n) := by
  obtain ⟨hD, -, -⟩ := exec_drw_next h
  have hF := exec_frame h
  have hspan : t.readSpan n.val = s.readSpan n.val := by
    simp only [State.readSpan, State.addr, hF.I rfl, hF.mem _ List.not_mem_nil]
  have hreg (r : RegIdx) (hr : r ≠ VF) : t.reg r = s.reg r := hF.regs r (List.mem_singleton.not.mpr hr)
  rw [← hreg x hx, ← hreg y hy, ← hspan, ← hD]
  exact t.drawing_drawn x y n

/-- Settles O46: both draws toggle the same pixels, so that the second undoes the first. -/
theorem drawingTwiceRestoresTheDisplay : Obligations.DrawingTwiceRestoresTheDisplay := by
  refine ⟨fun edge d xo yo sprite hlen => ?_, fun s t u x y n hx hy h h' => ?_⟩
  · have hfirst := drawSprite_drawn edge d xo yo sprite (by omega)
    have hsecond := drawSprite_drawn edge (drawSprite edge d xo yo sprite).display xo yo sprite (by omega)
    exact ⟨hfirst.twice_display hsecond, fun hd =>
      ⟨hfirst.hit_of_blank hd, hfirst.twice_hit_of_blank hsecond hd⟩⟩
  · obtain ⟨hD, hVF, -⟩ := exec_drw_next h
    obtain ⟨hD', hVF', -⟩ := exec_drw_next h'
    have hfirst := s.drawing_drawn x y n
    have hsecond := drawing_drawn_after_drw hx hy h
    rw [hD, hD', hVF, hVF']
    refine ⟨hfirst.twice_display hsecond, fun hd => ?_⟩
    have hhit := hfirst.twice_hit_of_blank hsecond hd
    refine ⟨by rw [hfirst.hit_of_blank hd]; rfl, fun hne => by rw [hhit.mpr hne]; rfl, fun heq => ?_⟩
    rw [Bool.eq_false_of_not_eq_true (mt hhit.mp (not_not_intro heq))]
    rfl

end Sys2Proof.Machine
end

section
/-! SUPPORT. What the keypad and timer instructions leave from every state, and a run of cycles that stays where it is
while the timers tick. -/

namespace Sys2Proof.Machine

variable {s : State} {x : RegIdx} {k : KeyIdx}

/-! ### Key skips and timer moves (R180 to R184) -/

/-- A value of `V[x]` that names no key raises KEY_RANGE, whatever the effect on a key is (D10). -/
theorem State.withKey_unnamed (hx : 15 < (s.reg x).toNat) (f : KeyIdx → Result) :
    s.withKey x f = .fault (.raised .keyRange (some (s.reg x).toNat)) := by
  rcases s.withKey_cases x f with ⟨hlt, -⟩ | ⟨-, h⟩
  · omega
  · exact h

/-- SKP and SKNP on such a value (R180, R181). -/
theorem execSkp_unnamed (hx : 15 < (s.reg x).toNat) :
    execSkp x s = .fault (.raised .keyRange (some (s.reg x).toNat)) := State.withKey_unnamed hx _

theorem execSknp_unnamed (hx : 15 < (s.reg x).toNat) :
    execSknp x s = .fault (.raised .keyRange (some (s.reg x).toNat)) := State.withKey_unnamed hx _

/-- Settles O48: on a named key both are skips, on its state and on the negation. -/
theorem keySkipResults : Obligations.KeySkipResults := fun _ _ =>
  ⟨fun _ hk =>
    ⟨exec_skip_result (execSkp_named hk) id id,
      exec_skip_result (execSknp_named hk) (congrArg Bool.not) (congrArg Bool.not)⟩,
    fun hx => ⟨execSkp_unnamed hx, execSknp_unnamed hx⟩⟩

/-- Settles O50: each of the three is one write, of a register or of a timer. -/
theorem timerMoveResults : Obligations.TimerMoveResults := fun _ x =>
  ⟨exec_setReg_result rfl, ⟨_, rfl, rfl, rfl, exec_frame (i := .ldDtVx x) rfl⟩,
    ⟨_, rfl, rfl, rfl, exec_frame (i := .ldStVx x) rfl⟩⟩

/-! ### Wait-for-key (R185) -/

theorem exec_ldVxK_of_noKey (hnone : ∀ k : KeyIdx, s.key[k] = false) : exec (.ldVxK x) s = .next s.rewindPc := by
  change execLdVxK x s = _
  rcases s.scanKeys_cases with ⟨e, -⟩ | ⟨k, -, hk, -⟩
  · rw [execLdVxK, e]
  · exact absurd (hk.symm.trans (hnone k)) nofun

/-- Of two highest pressed keys each is at most the other, so the scan answers `k`. -/
theorem exec_ldVxK_of_highest (hk : s.key[k] = true) (hmax : ∀ j : KeyIdx, s.key[j] = true → j ≤ k) :
    exec (.ldVxK x) s = .next (s.setReg x (BitVec.ofNat 8 k.val)) := by
  change execLdVxK x s = _
  rcases s.scanKeys_cases with ⟨-, hnone⟩ | ⟨k', e, hk', hmax'⟩
  · exact absurd (hk.symm.trans (hnone k)) nofun
  · obtain rfl : k' = k := le_antisymm (hmax k' hk') (hmax' k hk)
    rw [execLdVxK, e]

theorem frame_rewindPc : Frame {} s s.rewindPc := by constructor <;> simp

/-- A key's number fits a byte. -/
theorem toNat_keyByte (k : KeyIdx) : (BitVec.ofNat 8 k.val).toNat = k.val :=
  Nat.mod_eq_of_lt (by omega)

/-- Settles O49: the pc steps back, or the highest pressed key goes to the register. -/
theorem waitForKeyResult : Obligations.WaitForKeyResult := by
  refine fun s x => ⟨fun hnone => ?_, fun k hk hmax => ?_⟩
  · exact ⟨_, exec_ldVxK_of_noKey hnone, rfl, frame_rewindPc⟩
  · obtain ⟨t, h, hx, hpc, hF⟩ := exec_setReg_result (exec_ldVxK_of_highest (x := x) hk hmax)
    exact ⟨t, h, by rw [hx, toNat_keyByte], hpc, hF⟩

/-! ### Cycles that stay where they are -/

/-- `s` with these timers and keys. -/
def State.withTimersAndKeys (s : State) (dt st : Byte) (ks : Keys) : State := { s with DT := dt, ST := st, key := ks }

/-- If a cycle of `s` is the tick alone, whatever the timers hold and whichever keys of the run are set, then the run
changes the timers only, one tick for each cycle, and leaves the keys that were set last (R210). -/
theorem runKeys_of_step_tick (keys : List Keys)
    (hstep : ∀ ks ∈ keys, ∀ dt st,
      step (s.withTimersAndKeys dt st ks) = .next (s.withTimersAndKeys dt st ks).tick) :
    ∃ dt st, runKeys keys s = .next (s.withTimersAndKeys dt st (keys.getLast?.getD s.key)) ∧
      dt.toNat = s.DT.toNat - keys.length ∧ st.toNat = s.ST.toNat - keys.length := by
  induction keys generalizing s with
  | nil => exact ⟨s.DT, s.ST, rfl, rfl, rfl⟩
  | cons ks rest ih =>
    have hhead : step (s.setKeys ks) = .next (s.setKeys ks).tick := hstep ks (by simp) s.DT s.ST
    obtain ⟨dt, st, hrun, hdt, hst⟩ :=
      ih (s := (s.setKeys ks).tick) fun ks' hmem => hstep ks' (List.mem_cons_of_mem ks hmem)
    refine ⟨dt, st, ?_, ?_, ?_⟩
    · rw [runKeys, hhead, List.getLast?_cons]
      exact hrun
    · simpa [Nat.sub_sub, Nat.add_comm] using hdt
    · simpa [Nat.sub_sub, Nat.add_comm] using hst

/-! ### Waiting for a key (R185, R238) -/

/-- With no key pressed the step back undoes the pc advance of the fetch. -/
theorem step_ldVxK_of_noKey (hf : s.fault = none) (hpc : s.pc.toNat ≤ 0xFFE) (hd : decode s.word = .ldVxK x)
    (hnone : ∀ k : KeyIdx, s.key[k] = false) : step s = .next s.tick := by
  have hback : s.advancePc.rewindPc = s := congrArg s.setPc (BitVec.add_sub_cancel s.pc 2)
  rw [step_eq hf hpc, hd, exec_ldVxK_of_noKey (s := s.advancePc) hnone, hback]
  rfl

theorem step_ldVxK_of_highest (hf : s.fault = none) (hpc : s.pc.toNat ≤ 0xFFE) (hd : decode s.word = .ldVxK x)
    (hk : s.key[k] = true) (hmax : ∀ j : KeyIdx, s.key[j] = true → j ≤ k) :
    step s = .next (s.advancePc.setReg x (BitVec.ofNat 8 k.val)).tick := by
  rw [step_eq hf hpc, hd, exec_ldVxK_of_highest (s := s.advancePc) hk hmax]
  rfl

/-- Settles O19: each cycle of the wait is the tick alone; what it leaves still fetches the wait, which a key ends. -/
theorem waitForKeyWaits : Obligations.WaitForKeyWaits := by
  intro s x n hf hpc hd
  obtain ⟨dt, st, hrun, hdt, hst⟩ := runKeys_of_step_tick (s := s) (List.replicate n (Vector.replicate 16 false))
    fun ks hmem dt st => by
      obtain rfl := List.eq_of_mem_replicate hmem
      exact step_ldVxK_of_noKey hf hpc hd fun k => Vector.getElem_replicate k.isLt
  have hkey : (List.replicate n (Vector.replicate 16 false)).getLast?.getD s.key =
      if n = 0 then s.key else Vector.replicate 16 false := by
    rw [List.getLast?_replicate]
    split <;> rfl
  rw [hkey] at hrun
  rw [List.length_replicate] at hdt hst
  refine ⟨_, hrun, rfl, hdt, hst, fun keys k hk hmax => ?_⟩
  refine ⟨_, step_ldVxK_of_highest (x := x) hf hpc hd hk hmax, ?_, rfl, fun r hr => ?_⟩
  · rw [State.tick_reg, State.setReg_reg_self, toNat_keyByte]
  · exact State.setReg_reg_ne _ _ hr

end Sys2Proof.Machine
end

section
/-! SUPPORT. The timers over a run of cycles that do not write them, and the runs of an idle state. -/

namespace Sys2Proof.Machine

variable {s t : State}

/-! ### Timers over a run (R210) -/

theorem runKeys_cons_eq_next {ks : Keys} {rest : List Keys} :
    runKeys (ks :: rest) s = .next t ↔ ∃ u, step (s.setKeys ks) = .next u ∧ runKeys rest u = .next t := by
  rw [runKeys]
  cases step (s.setKeys ks) <;> simp

/-- A component that the host's keys leave and that every cycle of an instruction outside `W` takes down by 1, to 0
at the least, goes down by 1 for each cycle of a run without `W`. -/
theorem runKeys_countdown {T : State → Byte} {W : Instr → Prop} (keys : List Keys)
    (hkeys : ∀ u ks, T (u.setKeys ks) = T u)
    (hstep : ∀ u v, step u = .next v → ¬ W (decode u.word) → (T v).toNat = (T u).toNat - 1)
    (h : runKeys keys s = .next t)
    (hW : ∀ n u, n < keys.length → runKeys (keys.take n) s = .next u → ¬ W (decode u.word)) :
    (T t).toNat = (T s).toNat - keys.length := by
  induction keys generalizing s with
  | nil => cases h; rfl
  | cons ks rest ih =>
    obtain ⟨u, hfirst, hrest⟩ := runKeys_cons_eq_next.mp h
    have hu : (T u).toNat = (T s).toNat - 1 := by
      rw [hstep _ u hfirst (hW 0 s (Nat.succ_pos _) rfl), hkeys]
    have ht : (T t).toNat = (T u).toNat - rest.length := ih hrest fun n v hn hv =>
      hW (n + 1) v (Nat.succ_lt_succ hn) (runKeys_cons_eq_next.mpr ⟨u, hfirst, hv⟩)
    rw [ht, hu, List.length_cons, Nat.sub_sub, Nat.add_comm]

/-- Settles O16: either timer counts down in the cycles of the instructions that do not write it. -/
theorem timersAfterManyCycles : Obligations.TimersAfterManyCycles := by
  refine fun keys s t h => ⟨fun hDT => ?_, fun hST => ?_⟩
  · refine runKeys_countdown (T := State.DT) (W := fun i => ∃ x, i = .ldDtVx x) keys (fun _ _ => rfl)
      (fun u v huv hu => ?_) h fun n u hn hu => not_exists.mpr (hDT n u hn hu)
    obtain ⟨htick, -⟩ := timersTickAtTheEndOfEveryCycle u v huv
    exact htick (not_exists.mp hu)
  · refine runKeys_countdown (T := State.ST) (W := fun i => ∃ x, i = .ldStVx x) keys (fun _ _ => rfl)
      (fun u v huv hu => ?_) h fun n u hn hu => not_exists.mpr (hST n u hn hu)
    obtain ⟨-, -, htick, -⟩ := timersTickAtTheEndOfEveryCycle u v huv
    exact htick (not_exists.mp hu)

/-! ### Idling (R217, D24) -/

/-- An address of the space is its twelve low bits. -/
theorem zextNnn_nnnField {a : Word} (h : a.toNat ≤ 0xFFF) : zextNnn (nnnField a) = a := by
  apply BitVec.eq_of_toNat_eq
  rw [zextNnn_toNat, nnnField, BitVec.extractLsb'_toNat, Nat.shiftRight_zero, Nat.mod_eq_of_lt (by omega)]

/-- The word that D24 compares with, the jump's category over an address, is a jump to the address (R101). -/
theorem decode_or_zextNnn (nnn : Addr12) : decode (0x1000#16 ||| zextNnn nnn) = .jp nnn := by
  have hword : 0x1000#16 ||| zextNnn nnn = encode (.jp nnn) := calc
    _ = wordNnn 0x1 0 ||| wordNnn 0x0 nnn := congrArg (0x1000#16 ||| ·) (BitVec.setWidth_eq_append (by omega))
    _ = wordNnn (0x1 ||| 0x0) (0 ||| nnn) := BitVec.or_append
    _ = wordNnn 0x1 nnn := congrArg (wordNnn 0x1) BitVec.zero_or
  rw [hword, decode_encode rfl]

theorem isIdle_iff : s.isIdle = true ↔ s.fault = none ∧ s.pc.toNat ≤ 0xFFE ∧ s.word = 0x1000#16 ||| s.pc := by
  simp [State.isIdle, and_assoc]

/-- The jump of an idle state undoes the pc advance of the fetch. -/
theorem step_of_isIdle (h : s.isIdle = true) : step s = .next s.tick := by
  obtain ⟨hf, hpc, hword⟩ := isIdle_iff.mp h
  have haddr : zextNnn (nnnField s.pc) = s.pc := zextNnn_nnnField (by omega)
  have hjump : decode s.word = .jp (nnnField s.pc) := by
    rw [hword, ← decode_or_zextNnn, haddr]
  have hback : s.advancePc.setPc (zextNnn (nnnField s.pc)) = s := congrArg s.setPc haddr
  rw [step_eq hf hpc, hjump, exec, execJp, hback]
  rfl

/-- Settles O18: timers and keys are no part of what makes a state idle, so each cycle of the run is the tick alone. -/
theorem idleStateChangesOnlyTheTimers : Obligations.IdleStateChangesOnlyTheTimers := by
  intro keys s h
  have hidle (dt st : Byte) (ks : Keys) : (s.withTimersAndKeys dt st ks).isIdle = true := h
  obtain ⟨dt, st, hrun, hdt, hst⟩ :=
    runKeys_of_step_tick (s := s) keys fun ks _ dt st => step_of_isIdle (hidle dt st ks)
  exact ⟨_, hrun, hidle _ _ _, hdt, hst, rfl⟩

end Sys2Proof.Machine
end

section
/-! SUPPORT. Which instruction raises what, and what the record of a faulting cycle holds. -/

namespace Sys2Proof.Machine

variable {s : State} {f : Fault}

/-! ### What raises (R201) -/

/-- An access over a span raises exactly if its last address is out of range (R156). -/
theorem State.withSpan_eq_fault {c : Cause} {n : Nat} {u : State} :
    s.withSpan c n (.next u) = .fault f ↔
      0 < n ∧ 0xFFF < s.I.toNat + n - 1 ∧ f = .raised c (some (max s.I.toNat 0x1000)) := by
  rcases s.withSpan_cases c n (.next u) with ⟨hin, e⟩ | ⟨hn, hout, e⟩ <;> rw [e]
  · exact iff_of_false nofun fun ⟨_, _, _⟩ => by omega
  · have hlast : 0xFFF < s.I.toNat + n - 1 := by omega
    simp [raise, hn, hlast, eq_comm]

/-- A key instruction raises exactly if `V[x]` names no key (D10). -/
theorem State.withKey_eq_fault {x : RegIdx} {g : KeyIdx → State} :
    s.withKey x (fun k => .next (g k)) = .fault f ↔
      15 < (s.reg x).toNat ∧ f = .raised .keyRange (some (s.reg x).toNat) := by
  rcases s.withKey_cases x (fun k => .next (g k)) with ⟨hk, e⟩ | ⟨hk, e⟩ <;> rw [e]
  · exact iff_of_false nofun fun ⟨_, _⟩ => by omega
  · have hlast : 15 < (s.reg x).toNat := hk
    simp [raise, hlast, eq_comm]

theorem exec_call_eq_fault {nnn : Addr12} :
    exec (.call nnn) s = .fault f ↔ s.SP.val = 16 ∧ f = .raised .stackOverflow none := by
  by_cases h : s.SP.val = 16
  · simp [exec_call_of_full nnn h, h, eq_comm]
  · obtain ⟨t, ht⟩ := exec_call_of_lt (s := s) nnn (by omega)
    simp [ht, h]

theorem exec_ret_eq_fault : exec .ret s = .fault f ↔ s.SP.val = 0 ∧ f = .raised .stackUnderflow none := by
  by_cases h : s.SP.val = 0
  · simp [exec_ret_of_empty h, h, eq_comm]
  · obtain ⟨t, ht⟩ := exec_ret_of_pos (s := s) (by omega)
    simp [ht, h]

/-- Settles O8: each guarded instruction by its guard; the others complete from every state. -/
theorem onlyTheTabledInstructionsFault : Obligations.OnlyTheTabledInstructionsFault := by
  intro i s f
  cases i with
  | call nnn => simp [exec_call_eq_fault]
  | ret => simp [exec_ret_eq_fault]
  | skp x => simp [exec, execSkp, State.withKey_eq_fault]
  | sknp x => simp [exec, execSknp, State.withKey_eq_fault]
  | drw x y n => simp [exec, execDrw, State.withSpan_eq_fault]
  | ldRegs x => simp [exec, execLdRegs, State.withSpan_eq_fault]
  | stRegs x => simp [exec, execStRegs, State.withSpan_eq_fault]
  | ldB x => simp [exec, execLdB, State.withSpan_eq_fault]
  | ldVxK x =>
    refine iff_of_false ?_ (by simp)
    rw [exec, execLdVxK]
    split <;> nofun
  | _ => exact iff_of_false nofun (by simp)

/-- An instruction raises; the record is the cycle's to write (R203). -/
theorem exec_fault_raised {i : Instr} (h : exec i s = .fault f) : ∃ c info, f = .raised c info := by
  rcases (onlyTheTabledInstructionsFault i s f).mp h with
    ⟨_, -, -, rfl⟩ | ⟨-, -, rfl⟩ | ⟨_, -, -, rfl⟩ | ⟨_, _, _, -, -, -, rfl⟩ | ⟨_, -, -, rfl⟩ | ⟨_, -, -, rfl⟩ |
    ⟨_, -, -, rfl⟩
  all_goals exact ⟨_, _, rfl⟩

/-! ### The fault entry (R203, R205) -/

/-- The host sees the start state with the record set. -/
theorem afterCycle_of_recorded {r : FaultRecord} (h : step s = .fault (.recorded r)) :
    afterCycle s = s.takeFault r := by
  rw [afterCycle, h]

/-- A state with a record has no cycle and answers it (D30). -/
theorem step_takeFault (s : State) (r : FaultRecord) : step (s.takeFault r) = .fault (.recorded r) := rfl

/-- Settles O7: the record by the two ways a cycle can fault; then the fault entry, at which every step answers the
record again. -/
theorem faultsArePreciseAndSticky : Obligations.FaultsArePreciseAndSticky := by
  intro s f hf h
  obtain ⟨r, rfl⟩ := step_fault_recorded h
  have hafter := afterCycle_of_recorded h
  refine ⟨r, rfl, ?_⟩
  rw [← and_assoc, hafter]
  refine ⟨?_, rfl, step_takeFault s r, afterCycle_of_recorded (step_takeFault s r)⟩
  rcases step_fault_cases h with ⟨r', hr', -⟩ | ⟨-, hpc, hrec⟩ | ⟨-, hpc, g, hg, hrec⟩
  · rw [hf] at hr'; cases hr'
  · cases hrec
    exact ⟨rfl, .inl ⟨rfl, rfl, rfl, hpc⟩⟩
  · obtain ⟨c, info, rfl⟩ := exec_fault_raised hg
    cases hrec
    exact ⟨rfl, .inr ⟨rfl, hpc, hg⟩⟩

end Sys2Proof.Machine
end

section
/-! SUPPORT. What `Reset(image)` leaves, and the invariant that every state of a run keeps. -/

namespace Sys2Proof.Machine

variable {s t : State} {image : List Byte}

/-! ### Reset and load (R230, R231) -/

/-- An image that fits is loaded, and nothing but memory differs from the state after initialization. -/
theorem resetWith_of_le (h : image.length ≤ 3584) :
    resetWith image = .next (State.reset.setM (Memory.writeBytes [] 0x200 image)) := if_pos h

theorem resetWith_of_lt (h : 3584 < image.length) : resetWith image = .refused (.imageTooLarge image.length) :=
  if_neg (Nat.not_le.mpr h)

/-- A reset that answers a next state loaded an image that fits. -/
theorem resetWith_next (h : resetWith image = .next t) :
    image.length ≤ 3584 ∧ t = State.reset.setM (Memory.writeBytes [] 0x200 image) := by
  rcases le_or_gt image.length 3584 with hle | hgt
  · rw [resetWith_of_le hle] at h; cases h; exact ⟨hle, rfl⟩
  · rw [resetWith_of_lt hgt] at h; cases h

/-- What an address reads as unlisted is FONT in the font region and 0 elsewhere (R31). -/
theorem blank_eq (a : Nat) : blank a = if 0x50 ≤ a ∧ a ≤ 0x9F then Config.font.getD (a - 0x50) 0 else 0 :=
  if_congr (and_congr_right' Nat.lt_succ_iff) rfl rfl

/-- The loaded memory: the image from 0x200 on, the contents after initialization elsewhere. -/
theorem read_loadedImage (h : image.length ≤ 3584) (a : Nat) :
    (Memory.writeBytes [] 0x200 image).read a =
      if 0x200 ≤ a ∧ a < 0x200 + image.length then image.getD (a - 0x200) 0 else blank a := by
  rw [Memory.read_writeBytes Memory.wf_nil (by simp only [Config.memSize]; omega), Memory.read]
  by_cases hlo : 0x200 ≤ a
  · by_cases hhi : a < 0x200 + image.length
    · have hk : a - 0x200 < image.length := by omega
      simp [hlo, hhi, hk]
    · rw [List.getElem?_eq_none (by omega)]
      simp [hhi]
  · simp [hlo]

/-- Settles O11: the memory by its bytes, every other component by its value at initialization. -/
theorem resetLoadsTheImage : Obligations.ResetLoadsTheImage := by
  refine fun image => ⟨fun h => ⟨_, resetWith_of_le h, fun a => ?_, ?_⟩, resetWith_of_lt⟩
  · rw [State.setM_M, read_loadedImage h, blank_eq]
  · simp [State.reset, State.reg, State.setM]

/-! ### The invariant holds after reset -/

/-- Settles O12: no byte is listed, the pc is 0x200 and every slot is 0. -/
theorem resetSatisfiesTheInvariant : Obligations.ResetSatisfiesTheInvariant where
  mem := Memory.wf_nil
  pc := by decide
  stack := by simp [State.reset]

/-- Loading an image keeps the canonical form, and reaches neither the pc nor the stack. -/
theorem inv_of_resetWith (h : resetWith image = .next t) : t.Inv := by
  obtain ⟨hlen, rfl⟩ := resetWith_next h
  exact { resetSatisfiesTheInvariant with
    mem := Memory.wf_writeBytes Memory.wf_nil (by simp only [Config.memSize]; omega) }

/-! ### Every step keeps it -/

/-- The two stores write in range (R156); no other instruction writes memory (R51). -/
theorem exec_keeps_wf {i : Instr} (hm : s.M.wf = true) (h : exec i s = .next t) : t.M.wf = true := by
  cases i with
  | ldB x =>
    obtain ⟨hr, rfl⟩ := State.withSpan_next_inRange h
    exact Memory.wf_writeBytes hm (by simpa [State.addr, Config.memSize] using hr)
  | stRegs x =>
    obtain ⟨hr, rfl⟩ := State.withSpan_next_inRange h
    have hlen : (s.firstRegs (x.val + 1)).length = x.val + 1 := s.firstRegs_length (by omega)
    exact Memory.wf_writeBytes hm (by simp only [State.addr, Config.memSize]; omega)
  | ret => rw [execRet_next h]; exact hm
  | call nnn => rw [execCall_next h]; exact hm
  | seImm | sneImm | seReg | sneReg => cases h; rwa [State.skipIf_M]
  | skp x => obtain ⟨c, rfl⟩ := execSkp_next h; rwa [State.skipIf_M]
  | sknp x => obtain ⟨c, rfl⟩ := execSknp_next h; rwa [State.skipIf_M]
  | ldVxK x => obtain rfl | ⟨b, rfl⟩ := execLdVxK_next h <;> exact hm
  | drw | ldRegs => obtain rfl := State.withSpan_next h; exact hm
  | _ => cases h; exact hm

theorem step_keeps_wf (hm : s.M.wf = true) (h : step s = .next t) : t.M.wf = true := by
  obtain ⟨-, -, u, hu, rfl⟩ := step_next_cases h
  rw [State.tick_M]
  exact exec_keeps_wf (s := s.advancePc) hm hu

/-- Only CALL writes a slot, with the post-fetch pc of a fetch in range (R52, R102). -/
theorem step_keeps_stack_le (hst : ∀ j : Fin 16, (s.stack[j]).toNat ≤ 0x1000) (h : step s = .next t) (j : Fin 16) :
    (t.stack[j]).toNat ≤ 0x1000 := by
  obtain ⟨-, hpc, -⟩ := step_next_cases h
  have hw := stackWriters s t h
  generalize decode s.word = i at hw
  cases i with
  | call nnn =>
    rw [hw.2 j]
    split
    · bv_omega
    · exact hst j
  | _ => exact hw.2 ▸ hst j

/-- The skip's pc, from a fetch in range. -/
theorem State.advancePc_skipIf_pc_le (hpc : s.pc.toNat ≤ 0xFFE) (c : Bool) :
    (s.advancePc.skipIf c).pc.toNat ≤ 0x10FE := by
  rw [State.advancePc_skipIf_pc]
  split <;> bv_omega

/-- The pc is highest after `JP V0, nnn`, 0xFF + 0xFFF (R107, R233); a RET takes it from a slot. -/
theorem step_next_pc_le (hst : ∀ j : Fin 16, (s.stack[j]).toNat ≤ 0x1000) (h : step s = .next t) :
    t.pc.toNat ≤ 0x10FE := by
  have hp := pcAfterEveryCycle.2 s t h
  have hw := stackWriters s t h
  obtain ⟨-, hpc, u, hu, rfl⟩ := step_next_cases h
  generalize decode s.word = i at hp hw hu
  cases i with
  | jp | call | jpV0 => rw [hp]; omega
  | ret =>
    have hj : u.SP.val < 16 := by have hSP := hw.1; rw [State.tick_SP] at hSP; omega
    rw [hp ⟨u.SP.val, hj⟩ hw.1]
    exact (hst _).trans (by omega)
  | skp x => obtain ⟨c, rfl⟩ := execSkp_next hu; exact State.advancePc_skipIf_pc_le hpc c
  | sknp x => obtain ⟨c, rfl⟩ := execSknp_next hu; exact State.advancePc_skipIf_pc_le hpc c
  | seImm | sneImm | seReg | sneReg => cases hu; exact State.advancePc_skipIf_pc_le hpc _
  | ldVxK x => rw [hp]; split <;> bv_omega
  | _ => rw [hp]; bv_omega

/-- Settles O13: memory, pc and stack each by its own lemma. -/
theorem stepKeepsTheInvariant : Obligations.StepKeepsTheInvariant := fun _ _ hs h =>
  ⟨step_keeps_wf hs.mem h, step_next_pc_le hs.stack h, step_keeps_stack_le hs.stack h⟩

/-! ### The invariant over whole runs -/

/-- What the host's keys and every step keep, a run keeps. -/
theorem runKeys_keeps {P : State → Prop} (keys : List Keys) (hkeys : ∀ u ks, P u → P (u.setKeys ks))
    (hstep : ∀ u v, P u → step u = .next v → P v) (hs : P s) (h : runKeys keys s = .next t) : P t := by
  induction keys generalizing s with
  | nil => cases h; exact hs
  | cons ks rest ih =>
    obtain ⟨u, hfirst, hrest⟩ := runKeys_cons_eq_next.mp h
    exact ih (hstep _ u (hkeys s ks hs) hfirst) hrest

/-- Settles O14: the invariant holds after the load, and neither the host's keys nor a step end it. -/
theorem everyReachableStateKeepsTheInvariant : Obligations.EveryReachableStateKeepsTheInvariant :=
  fun _ keys _ _ hreset hrun =>
    runKeys_keeps keys (fun _ _ hu => ⟨hu.mem, hu.pc, hu.stack⟩) stepKeepsTheInvariant (inv_of_resetWith hreset) hrun

/-! ### A timer read in the next cycle (R236) -/

/-- A step that executes `LD Vy, DT` delivers the delay timer as it stood before the step (R182). -/
theorem step_ldVxDt_reg {y : RegIdx} (h : step s = .next t) (hd : decode s.word = .ldVxDt y) : t.reg y = s.DT := by
  obtain ⟨-, -, u, hu, rfl⟩ := step_next_cases h
  rw [hd] at hu
  cases hu
  exact State.setReg_reg_self _ _ _

/-- Settles O17: the first cycle's tick takes 1 from the timer it wrote; the second reads it before its own tick. -/
theorem timerWrittenThenReadNextCycle : Obligations.TimerWrittenThenReadNextCycle := by
  intro s t u x y hst hx _ htu hy
  obtain ⟨-, hDT, -⟩ := timersTickAtTheEndOfEveryCycle s t hst
  exact ⟨hDT x hx, step_ldVxDt_reg htu hy ▸ hDT x hx⟩

end Sys2Proof.Machine
end

section
/-! SUPPORT. Words written bit by bit, each as the encoder's word of the instruction it stands for. -/

namespace Sys2Proof

/-- A word that the encoder builds from a well-formed instruction decodes to that instruction. -/
theorem decode_of_encode_eq {w : Word} {i : Instr} (hi : i.wf = true) (hw : encode i = w) : decode w = i :=
  hw ▸ decode_encode hi

/-- Settles O4: each of the ten words is, bit by bit, what the encoder writes for its instruction, and the decoder reads
that back. -/
theorem someWordsDecodeAsWritten : Obligations.SomeWordsDecodeAsWritten := by
  unfold Obligations.SomeWordsDecodeAsWritten
  and_intros <;> exact decode_of_encode_eq rfl (by decide)

end Sys2Proof
end
